-- ==== Sys2Proof/Word.lean ====
section
/-! DEFINITION. The two word types of the block: a byte (00_scope.md R8) and the 16-bit word that the accumulators
(10_state.md R14, R16, R20) and the command words (30_encoding.md R53) are. -/

namespace Sys2Proof

/-- A byte: 8 bits, bit 7 the most significant (00_scope.md R8). -/
abbrev Byte := BitVec 8

/-- A 16-bit value, bit 15 the most significant (00_scope.md R8). -/
abbrev Word := BitVec 16

end Sys2Proof
end

