-- ==== Sys2Proof/Config.lean ====
section
/-! DEFINITION. The parameters of the block that the spec marks "argument" (00_scope.md R6): a model takes them as
arguments, so they stand in the state as plain data that no step changes (log entry 4). Their default values are
`Config.default` in Machine/Constants.lean. -/

namespace Sys2Proof

/-- The parameters of 00_scope.md R6 of kind "argument". -/
structure Config where
  /-- `COUNT_W`: width of the count registers in bits (92_eei_decisions.md D10). -/
  countW : Nat
  /-- `RET_W`: width of a signed return value in bits (D11). -/
  retW : Nat
  /-- `ERR_UNSPEC` (D4). -/
  errUnspec : Int
  /-- `ERR_CRC` (D4). -/
  errCrc : Int
  /-- `ERR_FRAME` (D4). -/
  errFrame : Int
deriving DecidableEq, Repr

/-- The two orders in which a serial link could carry the bits of a byte. -/
inductive LinkBitOrder
  | lsbFirst
  | msbFirst
deriving DecidableEq, Repr, Inhabited

/-- `LINK_BIT_ORDER` (92_eei_decisions.md D22, 93_implementation_defined.md U15): an OPEN parameter that no rule of
the spec reads, so it has no body here and nothing of the model mentions it (log entry 16). -/
opaque linkBitOrder : LinkBitOrder

end Sys2Proof
end

