-- ==== Sys2Proof/Syntax.lean ====
section
/-! DEFINITION. The operations of the block: one constructor of `Instr` for each row of spec/opcode_table.json (nine
primitives, 30_encoding.md R54; three macro-operations, R62), what a host issues (`Request`), and why a command word
is illegal (R59). -/

namespace Sys2Proof

/-- The twelve operations. A macro-operation carries its operands: the capacity `cap` of its destination and its
source bytes (20_memory.md R31, R32). -/
inductive Instr
  /-- `CRC.INIT` (40_crc.md R74). -/
  | crcInit
  /-- `CRC.UPDATE b` (40_crc.md R75). -/
  | crcUpdate (b : Byte)
  /-- `TX.INIT` (42_tx_framer.md R107). -/
  | txInit
  /-- `TX.BYTE b` (42_tx_framer.md R109). -/
  | txByte (b : Byte)
  /-- `TX.OPEN` (42_tx_framer.md R108). -/
  | txOpen
  /-- `TX.FINAL` (42_tx_framer.md R110). -/
  | txFinal
  /-- `RX.INIT` (41_rx_deframer.md R88). -/
  | rxInit
  /-- `RX.BYTE b` (41_rx_deframer.md R89). -/
  | rxByte (b : Byte)
  /-- `RX.DONE` (41_rx_deframer.md R90). -/
  | rxDone
  /-- `RX.UNPACK cap, src` (41_rx_deframer.md R92). -/
  | rxUnpack (cap : Nat) (src : List Byte)
  /-- `TX.PACK cap, src` (42_tx_framer.md R111). -/
  | txPack (cap : Nat) (src : List Byte)
  /-- `TX.FINALIZE cap` (42_tx_framer.md R113). -/
  | txFinalize (cap : Nat)
deriving DecidableEq, Repr

/-- How a host spells an operation to the block: a primitive is issued as one command word (30_encoding.md R53), a
macro-operation is a call with operands and has no command word (R62). -/
inductive Request
  | command (cw : Word)
  | unpack (cap : Nat) (src : List Byte)
  | pack (cap : Nat) (src : List Byte)
  | finalize (cap : Nat)
deriving DecidableEq, Repr

/-- What the host does next: it issues an operation, or it hands over another destination buffer (20_memory.md R32:
the buffer is the caller's; log entry 5). -/
inductive HostAction
  | issue (r : Request)
  /-- The destination space now consists of cells that hold these bytes, from offset 0 on. -/
  | lend (cells : List Byte)
deriving DecidableEq, Repr

/-- Why a command word is illegal: items (a), (b), (c) of 30_encoding.md R59. -/
inductive Illegal
  /-- (a) `ch` is 3 to 15. -/
  | channel
  /-- (b) `fn` is not listed for its channel. -/
  | function
  /-- (c) the operation takes no operand and `b` is not 0x00. -/
  | operand
deriving DecidableEq, Repr

/-- What decoding answers. -/
inductive Decoded
  | instr (i : Instr)
  | illegal (why : Illegal)
deriving DecidableEq, Repr

/-- The instruction, when there is one. -/
def Decoded.toOption : Decoded → Option Instr
  | .instr i => some i
  | .illegal _ => none

end Sys2Proof
end

