-- ==== Sys2Proof/WellFormed.lean ====
section
/-! DEFINITION. When an operation is well formed: the operand ranges of the macro-operations (30_encoding.md R63,
20_memory.md R31, R32). A primitive's byte operand is a byte by its type, so every primitive is well formed. -/

namespace Sys2Proof

/-- The largest count, capacity or source length: 2^(RET_W-1) - 1 (30_encoding.md R63). -/
def Config.maxCount (cfg : Config) : Nat := 2 ^ (cfg.retW - 1) - 1

/-- `0 <= cap <= 2^(RET_W-1) - 1` (20_memory.md R32). -/
def capOk (cfg : Config) (cap : Nat) : Bool := decide (cap ≤ cfg.maxCount)

/-- `0 <= n <= 2^(RET_W-1) - 1` for a source of `n` bytes (20_memory.md R31). -/
def srcOk (cfg : Config) (src : List Byte) : Bool := decide (src.length ≤ cfg.maxCount)

/-- The operand ranges of 30_encoding.md R63. -/
def Instr.wellFormed (cfg : Config) : Instr → Bool
  | .crcInit => true
  | .crcUpdate _ => true
  | .txInit => true
  | .txByte _ => true
  | .txOpen => true
  | .txFinal => true
  | .rxInit => true
  | .rxByte _ => true
  | .rxDone => true
  | .rxUnpack cap src => capOk cfg cap && srcOk cfg src
  | .txPack cap src => capOk cfg cap && srcOk cfg src
  | .txFinalize cap => capOk cfg cap

/-- Parameter values under which every return value is a two's-complement value of `RET_W` bits and the three error
codes are distinct and negative (92_eei_decisions.md D4; 93_implementation_defined.md U2; 30_encoding.md R57, R58: the
largest datum returned is 65535; log entry 7). -/
def Config.wf (cfg : Config) : Bool :=
  decide (17 ≤ cfg.retW) &&
  decide (-(2 ^ (cfg.retW - 1) : Int) ≤ cfg.errUnspec) && decide (cfg.errUnspec < 0) &&
  decide (-(2 ^ (cfg.retW - 1) : Int) ≤ cfg.errCrc) && decide (cfg.errCrc < 0) &&
  decide (-(2 ^ (cfg.retW - 1) : Int) ≤ cfg.errFrame) && decide (cfg.errFrame < 0) &&
  decide (cfg.errUnspec ≠ cfg.errCrc) && decide (cfg.errUnspec ≠ cfg.errFrame) &&
  decide (cfg.errCrc ≠ cfg.errFrame)

end Sys2Proof
end

