-- ==== Sys2Proof/Decode.lean ====
section
/-! DEFINITION. The command encoding of 30_encoding.md R53, R54, R59: the fields of a command word, the decoder (total
on every word; an illegal word is rejected by name), the encoder, and the opcode map as match and mask rows. -/

namespace Sys2Proof

/-- `ch`, bits 15:12 (30_encoding.md R53). -/
def fieldCh (cw : Word) : BitVec 4 := cw.extractLsb' 12 4

/-- `fn`, bits 11:8 (30_encoding.md R53). -/
def fieldFn (cw : Word) : BitVec 4 := cw.extractLsb' 8 4

/-- `b`, bits 7:0 (30_encoding.md R53). -/
def fieldB (cw : Word) : Byte := cw.extractLsb' 0 8

/-- A command word from its three fields (30_encoding.md R53). -/
def commandWord (ch fn : BitVec 4) (b : Byte) : Word := ch ++ fn ++ b

/-- An operation without an operand: its `b` must be 0x00 (30_encoding.md R53, R59 item c). -/
def noOperand (b : Byte) (i : Instr) : Decoded :=
  if b = 0x00#8 then .instr i else .illegal .operand

/-- Decoding of a command word by the opcode map of 30_encoding.md R54; every other word is illegal (R59). -/
def decode (cw : Word) : Decoded :=
  let b := fieldB cw
  match (fieldCh cw).toNat, (fieldFn cw).toNat with
  | 0, 0 => noOperand b .crcInit
  | 0, 1 => .instr (.crcUpdate b)
  | 0, _ => .illegal .function
  | 1, 0 => noOperand b .txInit
  | 1, 1 => .instr (.txByte b)
  | 1, 2 => noOperand b .txOpen
  | 1, 3 => noOperand b .txFinal
  | 1, _ => .illegal .function
  | 2, 0 => noOperand b .rxInit
  | 2, 1 => .instr (.rxByte b)
  | 2, 2 => noOperand b .rxDone
  | 2, _ => .illegal .function
  | _, _ => .illegal .channel

/-- The operation a request stands for: a command word is decoded, a macro call is itself (30_encoding.md R62). -/
def decodeRequest : Request → Decoded
  | .command cw => decode cw
  | .unpack cap src => .instr (.rxUnpack cap src)
  | .pack cap src => .instr (.txPack cap src)
  | .finalize cap => .instr (.txFinalize cap)

/-- The command word of a primitive (30_encoding.md R54); a macro-operation has none (R62). -/
def encode : Instr → Option Word
  | .crcInit => some (commandWord 0 0 0x00)
  | .crcUpdate b => some (commandWord 0 1 b)
  | .txInit => some (commandWord 1 0 0x00)
  | .txByte b => some (commandWord 1 1 b)
  | .txOpen => some (commandWord 1 2 0x00)
  | .txFinal => some (commandWord 1 3 0x00)
  | .rxInit => some (commandWord 2 0 0x00)
  | .rxByte b => some (commandWord 2 1 b)
  | .rxDone => some (commandWord 2 2 0x00)
  | .rxUnpack _ _ => none
  | .txPack _ _ => none
  | .txFinalize _ => none

/-- The request by which a host issues an operation: the command word of a primitive, the call of a macro-operation
(30_encoding.md R53, R62). -/
def encodeRequest : Instr → Request
  | .crcInit => .command (commandWord 0 0 0x00)
  | .crcUpdate b => .command (commandWord 0 1 b)
  | .txInit => .command (commandWord 1 0 0x00)
  | .txByte b => .command (commandWord 1 1 b)
  | .txOpen => .command (commandWord 1 2 0x00)
  | .txFinal => .command (commandWord 1 3 0x00)
  | .rxInit => .command (commandWord 2 0 0x00)
  | .rxByte b => .command (commandWord 2 1 b)
  | .rxDone => .command (commandWord 2 2 0x00)
  | .rxUnpack cap src => .unpack cap src
  | .txPack cap src => .pack cap src
  | .txFinalize cap => .finalize cap

/-- A row of the opcode map of 30_encoding.md R54: a word selects the row when `cw AND mask = match`. -/
structure OpcodeRow where
  mnemonic : String
  pattern : Word
  mask : Word
deriving DecidableEq, Repr

/-- The nine rows of 30_encoding.md R54, in its order. -/
def opcodeRows : List OpcodeRow :=
  [⟨"CRC.INIT", 0x0000, 0xFFFF⟩, ⟨"CRC.UPDATE", 0x0100, 0xFF00⟩,
   ⟨"TX.INIT", 0x1000, 0xFFFF⟩, ⟨"TX.BYTE", 0x1100, 0xFF00⟩, ⟨"TX.OPEN", 0x1200, 0xFFFF⟩,
   ⟨"TX.FINAL", 0x1300, 0xFFFF⟩,
   ⟨"RX.INIT", 0x2000, 0xFFFF⟩, ⟨"RX.BYTE", 0x2100, 0xFF00⟩, ⟨"RX.DONE", 0x2200, 0xFFFF⟩]

/-- `cw AND mask = match` (30_encoding.md R54). -/
def OpcodeRow.selects (r : OpcodeRow) (cw : Word) : Bool := cw &&& r.mask == r.pattern

/-- The mnemonic of an operation (30_encoding.md R54, R62). -/
def Instr.mnemonic : Instr → String
  | .crcInit => "CRC.INIT"
  | .crcUpdate _ => "CRC.UPDATE"
  | .txInit => "TX.INIT"
  | .txByte _ => "TX.BYTE"
  | .txOpen => "TX.OPEN"
  | .txFinal => "TX.FINAL"
  | .rxInit => "RX.INIT"
  | .rxByte _ => "RX.BYTE"
  | .rxDone => "RX.DONE"
  | .rxUnpack _ _ => "RX.UNPACK"
  | .txPack _ _ => "TX.PACK"
  | .txFinalize _ => "TX.FINALIZE"

/-- The command word whose lowest `nbits` bits are those of `w` and whose other bits are 0 (log entry 20). -/
def tableWord (nbits w : Nat) : Word := BitVec.ofNat 16 (w % 2 ^ nbits)

/-- The instruction the decoder reads from a word numbered as spec/opcode_table.json numbers it. -/
def decodeTableWord (nbits w : Nat) : Option Instr := (decode (tableWord nbits w)).toOption

end Sys2Proof
end

