-- ==== Sys2Proof/Machine/Constants.lean ====
section
/-! DEFINITION. The constants of 00_scope.md R6, under the spec's own names, and the default values of its
parameters. The spec takes the numeric literals of its source as normative (R3). -/

namespace Sys2Proof

/-- The frame delimiter byte (30_encoding.md R47). -/
def FLAG : Byte := 0x7E

/-- The escape byte (30_encoding.md R47). -/
def ESC : Byte := 0x7D

/-- The escape XOR mask (30_encoding.md R47). -/
def MASK : Byte := 0x20

/-- The generator polynomial without its x^16 term (00_scope.md R6, 40_crc.md R68). -/
def POLY : Word := 0x1021

/-- The accumulator value after init (40_crc.md R67). -/
def CRC_INIT : Word := 0xFFFF

/-- The number of entries of the lookup table (10_state.md R22). -/
abbrev TABLE_N : Nat := 256

/-- The number of lookback slots (10_state.md R18). -/
abbrev LB_N : Nat := 2

/-- The default parameter values of 00_scope.md R6 (decisions D4, D10, D11). -/
def Config.default : Config :=
  { countW := 32, retW := 32, errUnspec := -1, errCrc := -2, errFrame := -3 }

end Sys2Proof
end

