-- ==== Sys2Proof/Machine/State.lean ====
section
/-! DEFINITION. The state of the block: the three channels of 10_state.md R13 with the nine registers of R14 to R21,
and beside them the model's own fields (parameters, destination cells, what the host does next, the response last
delivered), each with a log entry. Also the reasons a step can stop. -/

namespace Sys2Proof.Machine

/-- The four values of a framing context's state register (10_state.md R15, 30_encoding.md R55). `TX.st` uses `idle`
and `data` only (10_state.md R19). -/
inductive CtxState
  | idle
  | start
  | data
  | escaped
deriving DecidableEq, Repr

/-- The events a primitive can report in its response (30_encoding.md R56, 60_exceptions.md R125). -/
inductive Event
  | none
  | frameOk
  | errCrc
  | errFrame
deriving DecidableEq, Repr

/-- The standalone checksum channel (10_state.md R14). -/
structure CrcCtx where
  /-- `CRC.acc`. -/
  acc : Word
deriving DecidableEq, Repr

/-- The receive framing context (10_state.md R15 to R18). -/
structure RxCtx where
  /-- `RX.st` (R15). -/
  st : CtxState
  /-- `RX.crc` (R16). -/
  crc : Word
  /-- `RX.cnt`, `COUNT_W` bits, modelled as a natural number (R17). -/
  cnt : Nat
  /-- `RX.lb[0]` (R18). -/
  lb0 : Byte
  /-- `RX.lb[1]` (R18). -/
  lb1 : Byte
deriving DecidableEq, Repr

/-- The transmit framing context (10_state.md R19 to R21). -/
structure TxCtx where
  /-- `TX.st` (R19). -/
  st : CtxState
  /-- `TX.crc` (R20). -/
  crc : Word
  /-- `TX.cnt`, `COUNT_W` bits, modelled as a natural number (R21). -/
  cnt : Nat
deriving DecidableEq, Repr

/-- `RESET_CTX` of the receive context (10_state.md R23). -/
def RxCtx.reset : RxCtx := { st := .idle, crc := CRC_INIT, cnt := 0, lb0 := 0x00, lb1 := 0x00 }

/-- `RESET_CTX` of the transmit context (10_state.md R23). -/
def TxCtx.reset : TxCtx := { st := .idle, crc := CRC_INIT, cnt := 0 }

/-- What one receive step answers: the context after it, the emitted payload bytes and the event (41_rx_deframer.md
R80). -/
structure RxResult where
  ctx : RxCtx
  out : List Byte
  ev : Event
deriving DecidableEq, Repr

/-- What a macro-operation's loop answers: the channel context `ctx` and the destination cells after it, the signed
return value and the number of source bytes reported as consumed (30_encoding.md R62). -/
structure MacroEnd (κ : Type) where
  ctx : κ
  dst : List Host.Cell
  ret : Int
  consumed : Nat
deriving DecidableEq, Repr

/-- The response to an operation. -/
inductive Response
  /-- Of a primitive: `resp`, `ev`, `out` (30_encoding.md R58). -/
  | prim (resp : Int) (ev : Event) (out : List Byte)
  /-- Of `TX.PACK` and `RX.UNPACK`: `ret` and `consumed` (30_encoding.md R62); the bytes are in the destination. -/
  | counted (ret : Int) (consumed : Nat)
  /-- Of `TX.FINALIZE`: `ret` alone (30_encoding.md R62). -/
  | final (ret : Int)
deriving DecidableEq, Repr

/-- The destination space as a list of (offset, byte) cells, offsets strictly rising. An offset that is not listed
holds what the host left there, which the model does not know (log entry 5). -/
abbrev Memory := List Host.Cell

/-- Why a step can stop with a fault. -/
inductive Fault
  /-- Raised by a write to the destination at an offset that is not below `cap`: the spec defines no such write
  (20_memory.md R32). No step reaches it (R42). Safe: the machine stops. -/
  | destinationBounds
deriving DecidableEq, Repr

/-- Why a step can be refused. -/
inductive Refusal
  /-- An instruction without a meaning in this model, raised by `exec` alone. Safe. No arm of `exec` uses it. -/
  | notModelled (mnemonic : String)
  /-- Raised by the step on an illegal command word, with the item of 30_encoding.md R59 that it meets. Safe: the
  spec refuses such a word. -/
  | illegalCommand (why : Illegal)
  /-- Raised by a receive accept or a pack step at a count of 2^COUNT_W - 1 (41_rx_deframer.md R96,
  42_tx_framer.md R118). Safe: the spec refuses such a step. -/
  | countOverflow
  /-- Raised by a macro-operation whose `cap` or source length is above 2^(RET_W-1) - 1 (30_encoding.md R63,
  93_implementation_defined.md U9). Safe: the spec refuses such a call. -/
  | operandRange
deriving DecidableEq, Repr

/-- The state of the machine. `crc`, `rx`, `tx` are the block's own state (10_state.md R13); the others are the
model's fields. -/
structure State where
  /-- The parameters of 00_scope.md R6; no step changes them (log entry 4). -/
  cfg : Config
  /-- Channel `CRC` (10_state.md R14). -/
  crc : CrcCtx
  /-- Channel `RX` (10_state.md R15 to R18). -/
  rx : RxCtx
  /-- Channel `TX` (10_state.md R19 to R21). -/
  tx : TxCtx
  /-- The cells of the destination space (20_memory.md R32; log entry 5). -/
  dst : Memory
  /-- What the host does next, the next action first (20_memory.md R43; log entry 1). -/
  issued : List HostAction
  /-- The response delivered last, none before the first one (30_encoding.md R58; log entry 3). -/
  rsp : Option Response
deriving DecidableEq, Repr

/-- Power-on reset (70_reset_and_hazards.md R141, 10_state.md R23): every register at the value the spec gives; the
parameters at their defaults (00_scope.md R6), no destination cell known, nothing issued and nothing answered (log
entries 1, 3, 4, 5). -/
def State.reset : State :=
  { cfg := Config.default
    crc := { acc := 0xFFFF }
    rx := RxCtx.reset
    tx := TxCtx.reset
    dst := []
    issued := []
    rsp := none }

end Sys2Proof.Machine
end

