-- ==== Sys2Proof/Machine/Ops.lean ====
section
/-! DEFINITION. The named operations over memory and registers: the destination space (20_memory.md R32), the lookback
ring (10_state.md R18), delivery of a response, and the one place where an event is taken
(60_exceptions.md R132). -/

namespace Sys2Proof.Machine

/-! ### The destination space -/

/-- The byte of the cell at offset `a`, none where the model does not know it. -/
def Memory.read : Memory → Nat → Option Byte
  | [], _ => none
  | (a', v) :: m, a => if a = a' then some v else Memory.read m a

/-- Stores `v` at offset `a`, keeping the offsets strictly rising. -/
def Memory.write : Memory → Nat → Byte → Memory
  | [], a, v => [(a, v)]
  | (a', v') :: m, a, v =>
    if a < a' then (a, v) :: (a', v') :: m
    else if a = a' then (a, v) :: m
    else (a', v') :: Memory.write m a v

/-- Stores a list of bytes at consecutive offsets from `a` on. -/
def Memory.writeList : Memory → Nat → List Byte → Memory
  | m, _, [] => m
  | m, a, v :: vs => Memory.writeList (Memory.write m a v) (a + 1) vs

/-- The canonical form: offsets strictly rising. (An unlisted offset reads as no value, so no entry can equal it.) -/
def Memory.wf : Memory → Bool
  | [] => true
  | [_] => true
  | (a, _) :: (a', v') :: m => decide (a < a') && Memory.wf ((a', v') :: m)

/-- The bytes of the first `n` cells, as far as they are known. -/
def Memory.firstBytes (m : Memory) (n : Nat) : List Byte := (List.range n).filterMap (Memory.read m)

/-- `MemWrite(DST + w, 1, v)`, defined for `w < cap` and for no other `w` (00_scope.md R10, 20_memory.md R32). -/
def memWrite (cap : Nat) (m : Memory) (w : Nat) (v : Byte) : Option Memory :=
  if w < cap then some (Memory.write m w v) else none

/-- `MemWrite` of each byte of a list, in increasing offset order from `w` on (20_memory.md R39). -/
def memWriteAll (cap : Nat) : Memory → Nat → List Byte → Option Memory
  | m, _, [] => some m
  | m, w, v :: vs =>
    match memWrite cap m w v with
    | none => none
    | some m' => memWriteAll cap m' (w + 1) vs

/-- The host hands over another destination buffer, whose cells hold these bytes (20_memory.md R32; log entry 5). -/
def lendDst (cells : List Byte) (s : State) : State := { s with dst := Memory.writeList [] 0 cells }

/-! ### Registers -/

/-- `RX.lb[k mod 2]` (10_state.md R18). -/
def lbGet (x : RxCtx) (k : Nat) : Byte := if k % LB_N = 0 then x.lb0 else x.lb1

/-- `RX.lb[k mod 2] <- d` (10_state.md R18). -/
def lbSet (x : RxCtx) (k : Nat) (d : Byte) : RxCtx :=
  if k % LB_N = 0 then { x with lb0 := d } else { x with lb1 := d }

/-- A count register that has reached `2^COUNT_W - 1`: the step that would pass it is refused (10_state.md R17, R21;
log entry 8). -/
def countFull (cfg : Config) (cnt : Nat) : Bool := decide (2 ^ cfg.countW - 1 ≤ cnt)

/-- Delivers the response of an operation to the host (20_memory.md R43; log entry 3). -/
def State.respond (s : State) (r : Response) : State := { s with rsp := some r }

/-! ### Taking an event -/

/-- An event of the receive channel is taken (60_exceptions.md R132): the context takes `RESET_CTX`, nothing is saved,
nothing is emitted, and the event is reported. Nothing is entered, so there is no return from it (R134): the next
operation is whatever the host issues next. -/
def takeEvent (ev : Event) : RxResult := { ctx := RxCtx.reset, out := [], ev := ev }

end Sys2Proof.Machine
end

