-- ==== Sys2Proof/Machine/Operands.lean ====
section
/-! DEFINITION. Operand checks and the numeric spellings of states, events and return values (30_encoding.md R55 to
R58, R63). -/

namespace Sys2Proof.Machine

/-- The state codes of 30_encoding.md R55, two bits. -/
def CtxState.code : CtxState → BitVec 2
  | .idle => 0
  | .start => 1
  | .data => 2
  | .escaped => 3

/-- The event codes of 30_encoding.md R56, two bits. -/
def Event.code : Event → BitVec 2
  | .none => 0
  | .frameOk => 1
  | .errCrc => 2
  | .errFrame => 3

/-- The return value that goes with an event and a count: the count when there is no error, the error's code
otherwise (30_encoding.md R57, R58; 60_exceptions.md R125). -/
def returnValue (cfg : Config) (ev : Event) (count : Nat) : Int :=
  match ev with
  | .none => count
  | .frameOk => count
  | .errCrc => cfg.errCrc
  | .errFrame => cfg.errFrame

/-- A return value as the `RET_W` bits of its two's-complement form (30_encoding.md R57). -/
def returnBits (cfg : Config) (v : Int) : BitVec cfg.retW := BitVec.ofInt cfg.retW v

/-- The operands of a macro-operation are in the ranges of 30_encoding.md R63; otherwise the call is refused
(93_implementation_defined.md U9). -/
def operandsOk (cfg : Config) (cap : Nat) (src : List Byte) : Bool := capOk cfg cap && srcOk cfg src

end Sys2Proof.Machine
end

