-- ==== Sys2Proof/Machine/Flags.lean ====
section
/-! DEFINITION. The one status flag of the block, `DONE` (10_state.md R24): no register but a function of `RX.st`. The
block has no carry, zero, overflow or other condition code. -/

namespace Sys2Proof.Machine

/-- `DONE = 1` when `RX.st = IDLE`, else 0 (10_state.md R24). -/
def doneFlag (x : RxCtx) : Bool := x.st == .idle

/-- The flag as the value `RX.DONE` answers (41_rx_deframer.md R90). -/
def doneValue (x : RxCtx) : Int := if doneFlag x then 1 else 0

end Sys2Proof.Machine
end

