-- ==== Sys2Proof/Machine/Rx.lean ====
section
/-! DEFINITION. The deframer, channel `RX` (41_rx_deframer.md): `rx_accept`, `rx_step`, `rx_would_emit`, and the
meanings of `RX.INIT`, `RX.BYTE`, `RX.DONE` and `RX.UNPACK`. -/

namespace Sys2Proof.Machine

/-- `rx_accept(d)`: the two-byte lag (41_rx_deframer.md R81). From the third data byte on, the older of the two
buffered bytes is emitted and folded into the CRC, and `d` takes the freed slot. -/
def rxAccept (x : RxCtx) (d : Byte) : RxResult :=
  if 2 ≤ x.cnt then
    let o := lbGet x x.cnt
    { ctx := { lbSet x x.cnt d with crc := crcUpdate x.crc o, cnt := x.cnt + 1, st := .data }
      out := [o]
      ev := .none }
  else
    { ctx := { lbSet x x.cnt d with cnt := x.cnt + 1, st := .data }
      out := []
      ev := .none }

/-- The comparison at the closing flag (41_rx_deframer.md R85): the older buffered byte is bits 7:0 of the received
CRC, the newer bits 15:8; with fewer than two data bytes there is no CRC and the buffer is not read. -/
def rxGood (x : RxCtx) : Bool :=
  if 2 ≤ x.cnt then
    let lo := lbGet x x.cnt
    let hi := lbGet x (x.cnt + 1)
    ((hi.setWidth 16 <<< 8) ||| lo.setWidth 16) == x.crc
  else false

/-- `rx_step(ctx, b)`, state by state (41_rx_deframer.md R82 to R86; total, R80). -/
def rxStep (x : RxCtx) (b : Byte) : RxResult :=
  match x.st with
  | .idle =>
    if b = FLAG then { ctx := { x with st := .start }, out := [], ev := .none }
    else { ctx := x, out := [], ev := .none }
  | .start =>
    if b = FLAG then { ctx := x, out := [], ev := .none }
    else if b = ESC then { ctx := { x with st := .escaped }, out := [], ev := .none }
    else rxAccept x b
  | .data =>
    if b = FLAG then
      if rxGood x then takeEvent .frameOk else takeEvent .errCrc
    else if b = ESC then { ctx := { x with st := .escaped }, out := [], ev := .none }
    else rxAccept x b
  | .escaped =>
    if b = FLAG ∨ b = ESC then takeEvent .errFrame
    else rxAccept x (b ^^^ MASK)

/-- Whether `rx_step(ctx, b)` calls `rx_accept`: in every state but `IDLE`, for every byte but the two reserved ones
(41_rx_deframer.md R87). -/
def rxWouldAccept (x : RxCtx) (b : Byte) : Bool :=
  decide (x.st ≠ .idle) && decide (b ≠ FLAG) && decide (b ≠ ESC)

/-- `rx_would_emit(ctx, b)` (41_rx_deframer.md R91). -/
def rxWouldEmit (x : RxCtx) (b : Byte) : Bool := rxWouldAccept x b && decide (2 ≤ x.cnt)

/-- `rx_step` where the spec gives it a meaning: a step that would call `rx_accept` at a full count is refused
(41_rx_deframer.md R96). -/
def rxStepChecked (cfg : Config) (x : RxCtx) (b : Byte) : Option RxResult :=
  if rxWouldAccept x b && countFull cfg x.cnt then none else some (rxStep x b)

/-- `RX.INIT` (41_rx_deframer.md R88). -/
def execRxInit (s : State) : Host.Outcome State Fault Refusal :=
  .next ({ s with rx := RxCtx.reset }.respond (.prim 0 .none []))

/-- `RX.BYTE b` (41_rx_deframer.md R89). -/
def execRxByte (b : Byte) (s : State) : Host.Outcome State Fault Refusal :=
  match rxStepChecked s.cfg s.rx b with
  | none => .refused .countOverflow
  | some r => .next ({ s with rx := r.ctx }.respond (.prim (returnValue s.cfg r.ev r.out.length) r.ev r.out))

/-- `RX.DONE` (41_rx_deframer.md R90). -/
def execRxDone (s : State) : Host.Outcome State Fault Refusal :=
  .next (s.respond (.prim (doneValue s.rx) .none []))

/-- The loop of `RX.UNPACK` (41_rx_deframer.md R92). The list is the source from index `i` on, so its head is
`MemRead(SRC + i, 1)`; `w` counts the bytes written to the destination. The closing flag is not counted as consumed
(R94). -/
def unpackLoop (cfg : Config) (cap : Nat) :
    List Byte → Nat → Nat → RxCtx → Memory → Host.Outcome (MacroEnd RxCtx) Fault Refusal
  | [], i, w, x, m => .next { ctx := x, dst := m, ret := w, consumed := i }
  | b :: rest, i, w, x, m =>
    if rxWouldEmit x b && w == cap then .next { ctx := x, dst := m, ret := w, consumed := i }
    else
      match rxStepChecked cfg x b with
      | none => .refused .countOverflow
      | some r =>
        match memWriteAll cap m w r.out with
        | none => .fault .destinationBounds
        | some m' =>
          match r.ev with
          | .none => unpackLoop cfg cap rest (i + 1) (w + r.out.length) r.ctx m'
          | .frameOk =>
            .next { ctx := r.ctx, dst := m', ret := returnValue cfg .frameOk (w + r.out.length), consumed := i }
          | .errCrc =>
            .next { ctx := r.ctx, dst := m', ret := returnValue cfg .errCrc (w + r.out.length), consumed := i }
          | .errFrame =>
            .next { ctx := r.ctx, dst := m', ret := returnValue cfg .errFrame (w + r.out.length), consumed := i + 1 }

/-- `RX.UNPACK cap, src` (41_rx_deframer.md R92). -/
def execRxUnpack (cap : Nat) (src : List Byte) (s : State) : Host.Outcome State Fault Refusal :=
  if operandsOk s.cfg cap src then
    match unpackLoop s.cfg cap src 0 0 s.rx s.dst with
    | .next e => .next ({ s with rx := e.ctx, dst := e.dst }.respond (.counted e.ret e.consumed))
    | .fault f => .fault f
    | .refused r => .refused r
  else .refused .operandRange

end Sys2Proof.Machine
end

