-- ==== Sys2Proof/Machine/Tx.lean ====
section
/-! DEFINITION. The framer, channel `TX` (42_tx_framer.md): `tx_esc`, `frame`, and the meanings of `TX.INIT`,
`TX.OPEN`, `TX.BYTE`, `TX.FINAL`, `TX.PACK` and `TX.FINALIZE`. -/

namespace Sys2Proof.Machine

/-- `tx_esc(b)` (42_tx_framer.md R106). -/
def txEsc (b : Byte) : List Byte := if b = FLAG ∨ b = ESC then [ESC, b ^^^ MASK] else [b]

/-- The two CRC bytes on the wire, low byte first, each escaped like data (30_encoding.md R48). -/
def crcWire (c : Word) : List Byte := txEsc (crcLow c) ++ txEsc (crcHigh c)

/-- `frame(p)`, the frame of a payload (42_tx_framer.md R119). -/
def frame (p : List Byte) : List Byte := [FLAG] ++ p.flatMap txEsc ++ crcWire (crcOf p) ++ [FLAG]

/-- The output of `TX.OPEN`: the opening flag when no frame is open (42_tx_framer.md R108). -/
def txOpenOut (x : TxCtx) : List Byte := if x.st = .idle then [FLAG] else []

/-- The context after `TX.OPEN` (42_tx_framer.md R108). -/
def txOpened (x : TxCtx) : TxCtx := if x.st = .idle then { x with st := .data } else x

/-- A raw byte is folded into the CRC and counted (42_tx_framer.md R109). -/
def txFold (x : TxCtx) (b : Byte) : TxCtx := { x with crc := crcUpdate x.crc b, cnt := x.cnt + 1 }

/-- The output of `TX.FINAL`; the CRC is the one of the context before it (42_tx_framer.md R110). -/
def txFinalOut (x : TxCtx) : List Byte := txOpenOut x ++ crcWire x.crc ++ [FLAG]

/-- The response of a transmit primitive: the number of wire bytes and the bytes (30_encoding.md R58). -/
def txResponse (out : List Byte) : Response := .prim out.length .none out

/-- `TX.INIT` (42_tx_framer.md R107). -/
def execTxInit (s : State) : Host.Outcome State Fault Refusal :=
  .next ({ s with tx := TxCtx.reset }.respond (txResponse []))

/-- `TX.OPEN` (42_tx_framer.md R108). -/
def execTxOpen (s : State) : Host.Outcome State Fault Refusal :=
  .next ({ s with tx := txOpened s.tx }.respond (txResponse (txOpenOut s.tx)))

/-- `TX.BYTE b` (42_tx_framer.md R109); refused at a full count (R118). -/
def execTxByte (b : Byte) (s : State) : Host.Outcome State Fault Refusal :=
  if countFull s.cfg s.tx.cnt then .refused .countOverflow
  else
    .next ({ s with tx := txFold (txOpened s.tx) b }.respond (txResponse (txOpenOut s.tx ++ txEsc b)))

/-- `TX.FINAL` (42_tx_framer.md R110). -/
def execTxFinal (s : State) : Host.Outcome State Fault Refusal :=
  .next ({ s with tx := TxCtx.reset }.respond (txResponse (txFinalOut s.tx)))

/-- The loop of `TX.PACK` (42_tx_framer.md R111). The list is the source from index `i` on, so its head is
`MemRead(SRC + i, 1)`; `w` counts the bytes written to the destination. The loop body is refused at a full count
(R118; log entry 9). -/
def packLoop (cfg : Config) (cap : Nat) :
    List Byte → Nat → Nat → TxCtx → Memory → Host.Outcome (MacroEnd TxCtx) Fault Refusal
  | [], i, w, x, m => .next { ctx := x, dst := m, ret := w, consumed := i }
  | b :: rest, i, w, x, m =>
    if countFull cfg x.cnt then .refused .countOverflow
    else if cap < w + (txEsc b).length then .next { ctx := x, dst := m, ret := w, consumed := i }
    else
      match memWriteAll cap m w (txEsc b) with
      | none => .fault .destinationBounds
      | some m' => packLoop cfg cap rest (i + 1) (w + (txEsc b).length) (txFold x b) m'

/-- `TX.PACK cap, src` (42_tx_framer.md R111): when the opening flag is due and does not fit, nothing happens. -/
def execTxPack (cap : Nat) (src : List Byte) (s : State) : Host.Outcome State Fault Refusal :=
  if operandsOk s.cfg cap src then
    let o := txOpenOut s.tx
    if cap < o.length then .next (s.respond (.counted 0 0))
    else
      match memWriteAll cap s.dst 0 o with
      | none => .fault .destinationBounds
      | some m =>
        match packLoop s.cfg cap src 0 o.length (txOpened s.tx) m with
        | .next e => .next ({ s with tx := e.ctx, dst := e.dst }.respond (.counted e.ret e.consumed))
        | .fault f => .fault f
        | .refused r => .refused r
  else .refused .operandRange

/-- The space `TX.FINALIZE` needs (42_tx_framer.md R113). -/
def finalizeNeed (x : TxCtx) : Nat :=
  (if x.st = .idle then 1 else 0) + (txEsc (crcLow x.crc)).length + (txEsc (crcHigh x.crc)).length + 1

/-- `TX.FINALIZE cap` (42_tx_framer.md R113): too little space answers `ERR_UNSPEC`, writes nothing and leaves the
context as it is (60_exceptions.md R128). -/
def execTxFinalize (cap : Nat) (s : State) : Host.Outcome State Fault Refusal :=
  if operandsOk s.cfg cap [] then
    if cap < finalizeNeed s.tx then .next (s.respond (.final s.cfg.errUnspec))
    else
      match memWriteAll cap s.dst 0 (txFinalOut s.tx) with
      | none => .fault .destinationBounds
      | some m => .next ({ s with tx := TxCtx.reset, dst := m }.respond (.final (finalizeNeed s.tx)))
  else .refused .operandRange

end Sys2Proof.Machine
end

