-- ==== Sys2Proof/Machine/Dispatch.lean ====
section
/-! DEFINITION. One arm for each operation of spec/opcode_table.json: the meaning it has. -/

namespace Sys2Proof.Machine

def exec (i : Instr) (s : State) : Host.Outcome State Fault Refusal :=
  match i with
  | .crcInit => Sys2Proof.Machine.execCrcInit s
  | .crcUpdate b => Sys2Proof.Machine.execCrcUpdate b s
  | .txInit => Sys2Proof.Machine.execTxInit s
  | .txByte b => Sys2Proof.Machine.execTxByte b s
  | .txOpen => Sys2Proof.Machine.execTxOpen s
  | .txFinal => Sys2Proof.Machine.execTxFinal s
  | .rxInit => Sys2Proof.Machine.execRxInit s
  | .rxByte b => Sys2Proof.Machine.execRxByte b s
  | .rxDone => Sys2Proof.Machine.execRxDone s
  | .rxUnpack cap src => Sys2Proof.Machine.execRxUnpack cap src s
  | .txPack cap src => Sys2Proof.Machine.execTxPack cap src s
  | .txFinalize cap => Sys2Proof.Machine.execTxFinalize cap s

end Sys2Proof.Machine
end

