-- ==== Sys2Proof/Machine/Step.lean ====
section
/-! DEFINITION. One step of the machine: the block executes the operation the host issues next (10_state.md R25,
20_memory.md R43). -/

namespace Sys2Proof.Machine

/-- One step. With nothing issued the block takes no step of its own and its state stays (60_exceptions.md R138; log
entry 2); a buffer the host hands over becomes the destination; an issued operation is decoded and executed, and an
illegal command word is refused (30_encoding.md R59). -/
def step (s : State) : Host.Outcome State Fault Refusal :=
  match s.issued with
  | [] => .next s
  | .lend cells :: rest => .next (lendDst cells { s with issued := rest })
  | .issue r :: rest =>
    match decodeRequest r with
    | .illegal why => .refused (.illegalCommand why)
    | .instr i => exec i { s with issued := rest }

/-- The state in which the host issues, before anything else it does, the command word whose bits are `w`. -/
def State.withFetchWord (s : State) (nbits w : Nat) : State :=
  { s with issued := .issue (.command (tableWord nbits w)) :: s.issued }

end Sys2Proof.Machine
end

