-- ==== Sys2Proof/Machine/Asm.lean ====
section
/-! DEFINITION. The spec's own assembler syntax, as lists of characters: a primitive on a line with its optional
comment, and a response (30_encoding.md R61); a macro-operation and its results (R62). What R61 leaves open (blanks,
the digits of an operand) is log entry 19. -/

namespace Sys2Proof.Machine

/-- The hexadecimal digit of a number below 16. -/
def hexDigit (d : Nat) : Char := if d < 10 then Char.ofNat (48 + d) else Char.ofNat (55 + d)

/-- A byte as two hexadecimal digits. -/
def hexByte (b : Byte) : List Char := [hexDigit (b.toNat / 16), hexDigit (b.toNat % 16)]

/-- A byte operand (30_encoding.md R61). -/
def hexOperand (b : Byte) : List Char := '0' :: 'x' :: hexByte b

/-- Bytes as digits, a blank between two of them. -/
def hexBytes : List Byte → List Char
  | [] => []
  | [b] => hexByte b
  | b :: bs => hexByte b ++ ' ' :: hexBytes bs

/-- A bracketed list of hexadecimal bytes (30_encoding.md R61, R62). -/
def bracketed (bs : List Byte) : List Char := '[' :: hexBytes bs ++ [']']

/-- A natural number in decimal. -/
def decimal (n : Nat) : List Char := Nat.toDigits 10 n

/-- A signed number in decimal. -/
def decimalInt (v : Int) : List Char := if v < 0 then '-' :: decimal v.natAbs else decimal v.natAbs

/-- An operation as it is written: a primitive by 30_encoding.md R61, a macro-operation by R62. -/
def asmInstr (i : Instr) : List Char :=
  match i with
  | .crcInit => i.mnemonic.toList
  | .crcUpdate b => i.mnemonic.toList ++ ' ' :: hexOperand b
  | .txInit => i.mnemonic.toList
  | .txByte b => i.mnemonic.toList ++ ' ' :: hexOperand b
  | .txOpen => i.mnemonic.toList
  | .txFinal => i.mnemonic.toList
  | .rxInit => i.mnemonic.toList
  | .rxByte b => i.mnemonic.toList ++ ' ' :: hexOperand b
  | .rxDone => i.mnemonic.toList
  | .rxUnpack cap src => i.mnemonic.toList ++ " cap=".toList ++ decimal cap ++ ", ".toList ++ bracketed src
  | .txPack cap src => i.mnemonic.toList ++ " cap=".toList ++ decimal cap ++ ", ".toList ++ bracketed src
  | .txFinalize cap => i.mnemonic.toList ++ " cap=".toList ++ decimal cap

/-- The name of an event (30_encoding.md R56). -/
def eventName : Event → List Char
  | .none => "NONE".toList
  | .frameOk => "FRAME_OK".toList
  | .errCrc => "ERR_CRC".toList
  | .errFrame => "ERR_FRAME".toList

/-- A response as it is written after `->`: `resp`, `ev` when it is not `NONE`, and `out` (30_encoding.md R61); for a
macro-operation its results, with the destination bytes `dst` (R62). -/
def asmResponse (r : Response) (dst : List Byte) : List Char :=
  match r with
  | .prim resp ev out =>
    decimalInt resp ++ (if ev = .none then [] else ' ' :: eventName ev) ++ ' ' :: bracketed out
  | .counted ret consumed =>
    "ret=".toList ++ decimalInt ret ++ ", consumed=".toList ++ decimal consumed ++ ", dst=".toList ++ bracketed dst
  | .final ret => "ret=".toList ++ decimalInt ret ++ ", dst=".toList ++ bracketed dst

/-- The value of a hexadecimal digit of either case. -/
def hexValue (c : Char) : Option Nat :=
  let n := c.toNat
  if 48 ≤ n ∧ n ≤ 57 then some (n - 48)
  else if 65 ≤ n ∧ n ≤ 70 then some (n - 55)
  else if 97 ≤ n ∧ n ≤ 102 then some (n - 87)
  else none

/-- A byte operand: `0x` and one or two hexadecimal digits. -/
def readOperand : List Char → Option Byte
  | ['0', 'x', c] => (hexValue c).map fun n => BitVec.ofNat 8 n
  | ['0', 'x', c, d] =>
    match hexValue c, hexValue d with
    | some m, some n => some (BitVec.ofNat 8 (16 * m + n))
    | _, _ => none
  | _ => none

/-- A blank: a space or a tab. -/
def isBlank (c : Char) : Bool := c == ' ' || c == '\t'

/-- The line without its comment, which runs from `;` to the end of the line (30_encoding.md R61), and without blanks
at its two ends. -/
def lineBody (line : List Char) : List Char :=
  (((line.takeWhile (fun c => c != ';')).dropWhile isBlank).reverse.dropWhile isBlank).reverse

/-- The mnemonic of a line's body: what stands before its first blank. -/
def lineMnemonic (body : List Char) : List Char := body.takeWhile fun c => !isBlank c

/-- The operand of a line's body: what stands after the blanks that follow its mnemonic. -/
def lineOperand (body : List Char) : List Char := (body.dropWhile fun c => !isBlank c).dropWhile isBlank

/-- The primitive that a mnemonic and an operand name (30_encoding.md R54, R61). -/
def readPrimitive (mnemonic operand : List Char) : Option Instr :=
  if operand = [] then
    if mnemonic = "CRC.INIT".toList then some .crcInit
    else if mnemonic = "TX.INIT".toList then some .txInit
    else if mnemonic = "TX.OPEN".toList then some .txOpen
    else if mnemonic = "TX.FINAL".toList then some .txFinal
    else if mnemonic = "RX.INIT".toList then some .rxInit
    else if mnemonic = "RX.DONE".toList then some .rxDone
    else none
  else
    match readOperand operand with
    | none => none
    | some b =>
      if mnemonic = "CRC.UPDATE".toList then some (.crcUpdate b)
      else if mnemonic = "TX.BYTE".toList then some (.txByte b)
      else if mnemonic = "RX.BYTE".toList then some (.rxByte b)
      else none

/-- The primitive written on a line (30_encoding.md R61). -/
def readLine (line : List Char) : Option Instr :=
  readPrimitive (lineMnemonic (lineBody line)) (lineOperand (lineBody line))

end Sys2Proof.Machine
end

