-- ==== Sys2Proof/Safety.lean ====
section
/-! DEFINITION. The terms in which claims about the block are stated: the channel an operation belongs to, the
invariants of 10_state.md R28 and R29, a deframer fed with a list of bytes, a host that issues operations in a row,
and the two host loops of the source's call contracts (streaming a payload out, taking a link in). A run is safe when
no step of it ends in a fault, and a host is conforming when it initialises a channel before it uses it. -/

namespace Sys2Proof.Machine

/-- The three channels (10_state.md R13). -/
inductive Channel
  | crc
  | rx
  | tx
deriving DecidableEq, Repr

/-- The channel an operation belongs to (10_state.md R30). -/
def channelOf : Instr → Channel
  | .crcInit => .crc
  | .crcUpdate _ => .crc
  | .txInit => .tx
  | .txByte _ => .tx
  | .txOpen => .tx
  | .txFinal => .tx
  | .rxInit => .rx
  | .rxByte _ => .rx
  | .rxDone => .rx
  | .rxUnpack _ _ => .rx
  | .txPack _ _ => .tx
  | .txFinalize _ => .tx

/-- Whether an operation is its channel's init (70_reset_and_hazards.md R143). -/
def isInit : Instr → Bool
  | .crcInit => true
  | .crcUpdate _ => false
  | .txInit => true
  | .txByte _ => false
  | .txOpen => false
  | .txFinal => false
  | .rxInit => true
  | .rxByte _ => false
  | .rxDone => false
  | .rxUnpack _ _ => false
  | .txPack _ _ => false
  | .txFinalize _ => false

/-! ### Invariants -/

/-- The invariants of the receive context (10_state.md R28, items a to d; the count's limit is R17). -/
structure RxInv (cfg : Config) (x : RxCtx) : Prop where
  /-- (a) -/
  idle_is_reset : x.st = .idle → x = RxCtx.reset
  /-- (b) -/
  start_is_fresh : x.st = .start → x.cnt = 0 ∧ x.crc = 0xFFFF ∧ x.lb0 = 0x00 ∧ x.lb1 = 0x00
  /-- (c) -/
  data_has_byte : x.st = .data → 1 ≤ x.cnt
  /-- (d) -/
  crc_of_emitted : ∃ e : List Byte, e.length = x.cnt - 2 ∧ x.crc = crcOf e
  /-- The count fits `COUNT_W` bits. -/
  count_fits : x.cnt ≤ 2 ^ cfg.countW - 1

/-- The invariants of the transmit context (10_state.md R29; the count's limit is R21). -/
structure TxInv (cfg : Config) (x : TxCtx) : Prop where
  /-- (a) -/
  idle_or_data : x.st = .idle ∨ x.st = .data
  /-- (b) -/
  crc_of_packed : ∃ p : List Byte, p.length = x.cnt ∧ x.crc = crcOf p
  /-- (c) -/
  idle_is_empty : x.st = .idle → x.cnt = 0
  /-- The count fits `COUNT_W` bits. -/
  count_fits : x.cnt ≤ 2 ^ cfg.countW - 1

/-- The invariant of the machine: both framing contexts and the canonical form of the destination cells. -/
structure State.Inv (s : State) : Prop where
  rx_inv : RxInv s.cfg s.rx
  tx_inv : TxInv s.cfg s.tx
  dst_wf : Memory.wf s.dst = true

/-- A response a host can read: the return value is a two's-complement value of `RET_W` bits, at most five bytes come
out of a primitive, and `consumed` is an unsigned value of `RET_W` bits (30_encoding.md R57, R58, R63). -/
def Response.fits (cfg : Config) : Response → Prop
  | .prim resp _ out => -(2 ^ (cfg.retW - 1) : Int) ≤ resp ∧ resp < 2 ^ (cfg.retW - 1) ∧ out.length ≤ 5
  | .counted ret consumed =>
    -(2 ^ (cfg.retW - 1) : Int) ≤ ret ∧ ret < 2 ^ (cfg.retW - 1) ∧ consumed < 2 ^ cfg.retW
  | .final ret => -(2 ^ (cfg.retW - 1) : Int) ≤ ret ∧ ret < 2 ^ (cfg.retW - 1)

/-! ### A deframer fed with bytes -/

/-- What comes of feeding bytes: the context after the last one, the emitted bytes and the event of each step. -/
structure Fed where
  ctx : RxCtx
  out : List Byte
  evs : List Event
deriving DecidableEq, Repr

/-- `rx_step` on each byte of a list in turn (41_rx_deframer.md R80). -/
def rxFeed : RxCtx → List Byte → Fed
  | x, [] => { ctx := x, out := [], evs := [] }
  | x, b :: bs =>
    let r := rxStep x b
    let f := rxFeed r.ctx bs
    { ctx := f.ctx, out := r.out ++ f.out, evs := r.ev :: f.evs }

/-- No step reported an event. -/
def Fed.quiet (f : Fed) : Prop := ∀ e ∈ f.evs, e = Event.none

/-- The last step, and no other, reported the event `ev`. -/
def Fed.endsWith (f : Fed) (ev : Event) : Prop :=
  ∃ before : List Event, f.evs = before ++ [ev] ∧ ∀ e ∈ before, e = Event.none

/-- The five ways in which `RX.UNPACK` ends (41_rx_deframer.md R93), for a loop that starts at source index `i` with
`w` bytes written: `k` bytes of `src` were stepped, with `f` what came of feeding them. -/
inductive UnpackEnding (cfg : Config) (cap : Nat) (src : List Byte) (i w k : Nat) (f : Fed) : Int → Nat → Prop
  /-- (a) Source exhausted. -/
  | sourceExhausted (stepped : k = src.length) (quiet : f.quiet) :
    UnpackEnding cfg cap src i w k f (w + f.out.length : Nat) (i + k)
  /-- (b) Frame complete and good; the closing flag is not counted (R94). -/
  | frameGood (flag : 0 < k ∧ src[k - 1]? = some FLAG) (event : f.endsWith .frameOk) :
    UnpackEnding cfg cap src i w k f (w + f.out.length : Nat) (i + (k - 1))
  /-- (c) Destination exhausted: the next source byte would emit a byte for which there is no room. -/
  | destinationExhausted (b : Byte) (next : src[k]? = some b) (emits : rxWouldEmit f.ctx b = true)
      (full : w + f.out.length = cap) (quiet : f.quiet) :
    UnpackEnding cfg cap src i w k f (w + f.out.length : Nat) (i + k)
  /-- (d) `ERR_CRC`; the closing flag is not counted (R94). -/
  | crcError (flag : 0 < k ∧ src[k - 1]? = some FLAG) (event : f.endsWith .errCrc) :
    UnpackEnding cfg cap src i w k f cfg.errCrc (i + (k - 1))
  /-- (e) `ERR_FRAME`; the offending byte is counted (R94). -/
  | frameError (event : f.endsWith .errFrame) :
    UnpackEnding cfg cap src i w k f cfg.errFrame (i + k)

/-- `RX.UNPACK` meets no full count: wherever its loop arrives (no event yet, everything emitted so far had room, and
the destination does not stop it before the next byte), a byte that would be accepted finds a count below
`2^COUNT_W - 1` (41_rx_deframer.md R96). `w` bytes are written when the loop starts. -/
def UnpackRoom (cfg : Config) (cap w : Nat) (x : RxCtx) (src : List Byte) : Prop :=
  ∀ k b, src[k]? = some b → (rxFeed x (src.take k)).quiet →
    w + (rxFeed x (src.take k)).out.length ≤ cap →
    ¬(rxWouldEmit (rxFeed x (src.take k)).ctx b = true ∧ w + (rxFeed x (src.take k)).out.length = cap) →
    rxWouldAccept (rxFeed x (src.take k)).ctx b = true →
    (rxFeed x (src.take k)).ctx.cnt + 1 < 2 ^ cfg.countW

/-- `TX.PACK` meets no full count: wherever its loop arrives (the units before fit) with a byte left, the count is
below `2^COUNT_W - 1` (42_tx_framer.md R118). `w` bytes are written when the loop starts. -/
def PackRoom (cfg : Config) (cap w : Nat) (x : TxCtx) (src : List Byte) : Prop :=
  ∀ k, k < src.length → w + ((src.take k).flatMap txEsc).length ≤ cap → x.cnt + k + 1 < 2 ^ cfg.countW

/-! ### Units of the wire -/

/-- A data byte on the wire, plain or as an escape pair (30_encoding.md R51: a unit). -/
structure WireUnit where
  byte : Byte
  escaped : Bool
deriving DecidableEq, Repr

/-- The wire bytes of a unit; the receiver unescapes with `XOR MASK` (30_encoding.md R50). -/
def WireUnit.bytes (u : WireUnit) : List Byte := if u.escaped then [ESC, u.byte ^^^ MASK] else [u.byte]

/-- No byte of the unit but the escape byte itself is reserved (30_encoding.md R51). -/
def WireUnit.legal (u : WireUnit) : Bool :=
  if u.escaped then decide (u.byte ^^^ MASK ≠ FLAG) && decide (u.byte ^^^ MASK ≠ ESC)
  else decide (u.byte ≠ FLAG) && decide (u.byte ≠ ESC)

/-- The data bytes of a frame that is good: at least two, the last two being the CRC of the others, low byte first
(30_encoding.md R51). -/
def goodData (d : List Byte) : Bool :=
  decide (2 ≤ d.length) &&
    decide (d.drop (d.length - 2) = [crcLow (crcOf (d.take (d.length - 2))), crcHigh (crcOf (d.take (d.length - 2)))])

/-! ### A host that issues operations -/

/-- Executes operations in a row and collects their responses; none when one of them ends in a fault or a refusal. -/
def runOps : List Instr → State → Option (List Response × State)
  | [], s => some ([], s)
  | i :: is, s =>
    match exec i s with
    | .next t =>
      match t.rsp, runOps is t with
      | some r, some (rs, u) => some (r :: rs, u)
      | _, _ => none
    | .fault _ => none
    | .refused _ => none

/-- The bytes that come out of a primitive. -/
def Response.out : Response → List Byte
  | .prim _ _ out => out
  | .counted _ _ => []
  | .final _ => []

/-- The event that a primitive reports. -/
def Response.event : Response → Event
  | .prim _ ev _ => ev
  | .counted _ _ => .none
  | .final _ => .none

/-- What a host makes of a link with `RX.UNPACK`. -/
structure Received where
  /-- The payload bytes delivered, in order. -/
  payload : List Byte
  /-- A call ended with a good frame. -/
  complete : Bool
  /-- The bytes of the link not consumed. -/
  link : List Byte
  state : State
deriving DecidableEq, Repr

/-- The test of 41_rx_deframer.md R95: `ret >= 0`, `consumed < n`, `src[consumed] = 0x7E` and `DONE = 1`. -/
def frameCompleted (src : List Byte) (ret : Int) (consumed : Nat) (x : RxCtx) : Bool :=
  decide (0 ≤ ret) && decide (consumed < src.length) && decide (src[consumed]? = some FLAG) && doneFlag x

/-- A host that takes a link in (41_rx_deframer.md R98): call by call it offers the next bytes of the link and a
destination capacity, as the schedule of (capacity, number of bytes) says; it keeps the bytes written, drops the bytes
consumed, and stops at a completed frame. None when a call answers an error, a fault or a refusal. -/
def hostReceive : List (Nat × Nat) → List Byte → List Byte → State → Option Received
  | [], link, acc, s => some { payload := acc, complete := false, link := link, state := s }
  | (cap, k) :: sched, link, acc, s =>
    match exec (.rxUnpack cap (link.take k)) s with
    | .next t =>
      match t.rsp with
      | some (.counted ret consumed) =>
        if ret < 0 then none
        else if frameCompleted (link.take k) ret consumed t.rx then
          some { payload := acc ++ Memory.firstBytes t.dst ret.toNat, complete := true,
                 link := link.drop consumed, state := t }
        else hostReceive sched (link.drop consumed) (acc ++ Memory.firstBytes t.dst ret.toNat) t
      | _ => none
    | .fault _ => none
    | .refused _ => none

/-- What a host has sent with `TX.PACK`. -/
structure Sent where
  /-- The wire bytes, in order. -/
  wire : List Byte
  /-- The payload bytes not yet packed. -/
  rest : List Byte
  state : State
deriving DecidableEq, Repr

/-- A host that streams a payload out (42_tx_framer.md R117): call by call it offers the next bytes of the payload and
a destination capacity; it sends the bytes written and drops the bytes consumed. -/
def hostSend : List (Nat × Nat) → List Byte → List Byte → State → Option Sent
  | [], p, acc, s => some { wire := acc, rest := p, state := s }
  | (cap, k) :: sched, p, acc, s =>
    match exec (.txPack cap (p.take k)) s with
    | .next t =>
      match t.rsp with
      | some (.counted ret consumed) =>
        hostSend sched (p.drop consumed) (acc ++ Memory.firstBytes t.dst ret.toNat) t
      | _ => none
    | .fault _ => none
    | .refused _ => none

/-- Whether a host initialises each channel before it uses it (70_reset_and_hazards.md R145); the flags say which
channels it has initialised already. `RX.DONE` counts as a use. -/
def initsFirst : Bool → Bool → Bool → List HostAction → Bool
  | _, _, _, [] => true
  | c, r, t, .lend _ :: rest => initsFirst c r t rest
  | c, r, t, .issue q :: rest =>
    match decodeRequest q with
    | .illegal _ => initsFirst c r t rest
    | .instr i =>
      match channelOf i with
      | .crc => (isInit i || c) && initsFirst true r t rest
      | .rx => (isInit i || r) && initsFirst c true t rest
      | .tx => (isInit i || t) && initsFirst c r true rest

/-- What a host sees of the outcome of a run: the last response and the destination cells, or why it stopped. -/
def seen : Host.Outcome State Fault Refusal → Host.Outcome (Option Response × Memory) Fault Refusal
  | .next s => .next (s.rsp, s.dst)
  | .fault f => .fault f
  | .refused r => .refused r

/-- The outcome is a fault. -/
def faults : Host.Outcome State Fault Refusal → Prop
  | .next _ => False
  | .fault _ => True
  | .refused _ => False

end Sys2Proof.Machine
end

