-- ==== Sys2Proof/Certificates/Slice0/Obligations.lean ====
section
/-! DEFINITION. The statements about the block. Each docstring names the rule of `spec/` it formalises. -/

open Sys2Proof Sys2Proof.Machine

/-! ### Encoding -/

/-- 30_encoding.md R53, R54, R62: a request spelled by the encoder decodes to the operation it was made from, every
operand at every value; a primitive's request is its 16-bit command word. -/
def Obligations.EncodedRequestDecodesBack : Prop :=
  ∀ i : Instr, decodeRequest (encodeRequest i) = .instr i ∧
    ∀ w, encode i = some w → encodeRequest i = .command w ∧ decode w = .instr i

/-- 30_encoding.md R54: the opcode map. A word selects a row exactly when `cw AND mask = match`, and it then decodes to
that row's operation with `b` its low byte. -/
def Obligations.OpcodeMapSelectsOperation : Prop :=
  ∀ w : Word,
    (w &&& 0xFFFF = 0x0000 ↔ decode w = .instr .crcInit) ∧
    (w &&& 0xFF00 = 0x0100 ↔ decode w = .instr (.crcUpdate (w.setWidth 8))) ∧
    (w &&& 0xFFFF = 0x1000 ↔ decode w = .instr .txInit) ∧
    (w &&& 0xFF00 = 0x1100 ↔ decode w = .instr (.txByte (w.setWidth 8))) ∧
    (w &&& 0xFFFF = 0x1200 ↔ decode w = .instr .txOpen) ∧
    (w &&& 0xFFFF = 0x1300 ↔ decode w = .instr .txFinal) ∧
    (w &&& 0xFFFF = 0x2000 ↔ decode w = .instr .rxInit) ∧
    (w &&& 0xFF00 = 0x2100 ↔ decode w = .instr (.rxByte (w.setWidth 8))) ∧
    (w &&& 0xFFFF = 0x2200 ↔ decode w = .instr .rxDone)

/-- 30_encoding.md R59: a word is illegal when (a) `ch` is 3 to 15, (b) `fn` is not listed for its channel, or (c) the
operation takes no operand and `b` is not 0x00; such a word is rejected, and no other; a step that is to run it is
refused and reaches no state. -/
def Obligations.IllegalWordsAreRefused : Prop :=
  ∀ w : Word,
    let ch := (w >>> 12).toNat
    let fn := ((w >>> 8) &&& 0xF).toNat
    let b := (w &&& 0xFF).toNat
    let illegal := 3 ≤ ch ∨ (ch = 0 ∧ 2 ≤ fn) ∨ (ch = 1 ∧ 4 ≤ fn) ∨ (ch = 2 ∧ 3 ≤ fn) ∨
      (ch ≤ 2 ∧ fn ≠ 1 ∧ ((ch = 0 ∧ fn = 0) ∨ (ch = 1 ∧ fn ≤ 3) ∨ (ch = 2 ∧ fn ≤ 2)) ∧ b ≠ 0)
    (illegal ↔ ∃ why, decode w = .illegal why) ∧
    (illegal → ∀ (s : State) (rest : List HostAction), s.issued = .issue (.command w) :: rest →
      ∃ why, step s = .refused (.illegalCommand why))

/-- 30_encoding.md R54, words written out from the opcode map. -/
def Obligations.SampleCommandWordsDecode : Prop :=
  decode 0b0000000000000000 = .instr .crcInit ∧
  decode 0b0000000100110001 = .instr (.crcUpdate 0x31) ∧
  decode 0b0001000000000000 = .instr .txInit ∧
  decode 0b0001000101111110 = .instr (.txByte 0x7E) ∧
  decode 0b0001001000000000 = .instr .txOpen ∧
  decode 0b0001001100000000 = .instr .txFinal ∧
  decode 0b0010000000000000 = .instr .rxInit ∧
  decode 0b0010000110111100 = .instr (.rxByte 0xBC) ∧
  decode 0b0010001000000000 = .instr .rxDone

/-- The model's choice (log entry 19, DESIGN CHOICE): the spelling it writes for a primitive, with one blank and two
upper-case digits, is read back as the primitive, also with a blank and a comment after it. 30_encoding.md R61 gives
the mnemonic, the hexadecimal operand and the comment from `;` on, and leaves blanks and digits open. -/
def Obligations.AssemblerLineReadsBack : Prop :=
  ∀ (i : Instr) (comment : List Char), (encode i).isSome →
    readLine (asmInstr i) = some i ∧ readLine (asmInstr i ++ ' ' :: ';' :: comment) = some i

/-! ### The machine -/

/-- 10_state.md R25, 20_memory.md R43, on the model's list of host actions (log entries 1 and 20, DESIGN CHOICE): a step
executes the operation that is issued next, after the action is taken off the list; a word placed where the next
operation is read runs in the very next step. -/
def Obligations.StepRunsTheDecodedOperation : Prop :=
  (∀ (s : State) (r : Request) (rest : List HostAction) (i : Instr),
    s.issued = .issue r :: rest → decodeRequest r = .instr i → step s = exec i { s with issued := rest }) ∧
  (∀ (s : State) (w : Nat) (i : Instr), decodeTableWord 16 w = some i → step (s.withFetchWord 16 w) = exec i s)

/-- The model's choices of log entries 2 and 5: with nothing issued the state stays; a buffer the host hands over
becomes the destination and nothing else changes. -/
def Obligations.StepWithoutAnOperation : Prop :=
  (∀ s : State, s.issued = [] → step s = .next s) ∧
  (∀ (s : State) (cells : List Byte) (rest : List HostAction), s.issued = .lend cells :: rest →
    ∃ d, step s = .next { s with issued := rest, dst := d } ∧ ∀ a, Memory.read d a = cells[a]?)

/-- 70_reset_and_hazards.md R141: the state after power-on reset, which is the state of the channels that the three
init operations produce from any state; and the `DONE` flag then reads 1 (10_state.md R24). -/
def Obligations.ResetState : Prop :=
  State.reset.crc.acc = 0xFFFF ∧
  State.reset.rx = { st := .idle, crc := 0xFFFF, cnt := 0, lb0 := 0x00, lb1 := 0x00 } ∧
  State.reset.tx = { st := .idle, crc := 0xFFFF, cnt := 0 } ∧
  doneFlag State.reset.rx = true ∧
  (∀ s : State, ∃ t rs, runOps [.crcInit, .rxInit, .txInit] s = some (rs, t) ∧
    t.crc = State.reset.crc ∧ t.rx = State.reset.rx ∧ t.tx = State.reset.tx)

/-- 10_state.md R28, R29: the invariants hold at reset. -/
def Obligations.ResetMeetsTheInvariants : Prop := State.reset.Inv

/-- 10_state.md R28, R29, and the canonical form of the destination cells: every step keeps the invariants. -/
def Obligations.StepKeepsTheInvariants : Prop :=
  ∀ s t : State, s.Inv → step s = .next t → t.Inv

/-- 20_memory.md R42: a bounds violation cannot occur, from any state whatever. -/
def Obligations.StepNeverFaults : Prop := ∀ s : State, ¬faults (step s)

/-- 10_state.md R30: an operation of one channel leaves the registers of the other channels, the parameters and the
list of issued actions as they are; a primitive leaves every destination cell as it is (20_memory.md R34); `RX.DONE`
writes no register and `TX.OPEN` none but `TX.st`. -/
def Obligations.OperationsTouchTheirChannelOnly : Prop :=
  ∀ (i : Instr) (s t : State), exec i s = .next t →
    t.cfg = s.cfg ∧ t.issued = s.issued ∧
    (channelOf i ≠ .crc → t.crc = s.crc) ∧
    (channelOf i ≠ .rx → t.rx = s.rx) ∧
    (channelOf i ≠ .tx → t.tx = s.tx) ∧
    ((encode i).isSome → ∀ a, Memory.read t.dst a = Memory.read s.dst a) ∧
    (i = .rxDone → t.rx = s.rx) ∧
    (i = .txOpen → t.tx.crc = s.tx.crc ∧ t.tx.cnt = s.tx.cnt)

/-- 20_memory.md R44: operations on different channels commute: both orders give the same channels and the same two
responses. (The destination cells are left out: the two calls of two macros are given two buffers.) -/
def Obligations.OperationsOnDifferentChannelsCommute : Prop :=
  ∀ (i j : Instr) (s a b : State), channelOf i ≠ channelOf j → exec i s = .next a → exec j s = .next b →
    ∃ c d, exec j a = .next c ∧ exec i b = .next d ∧
      c.crc = d.crc ∧ c.rx = d.rx ∧ c.tx = d.tx ∧ c.rsp = b.rsp ∧ d.rsp = a.rsp

/-- 70_reset_and_hazards.md R145, R150, decision D8: for a host that initialises each channel before it uses it, what
the host sees after any number of steps does not depend on what the channels held at the beginning. (`RX.DONE` counts as
a use, which R145 does not list; the host's actions and the buffer are those of log entries 1 and 5.) -/
def Obligations.InitialisedRunsIgnoreTheStartState : Prop :=
  ∀ (s t : State) (k : Nat), s.cfg = t.cfg → s.dst = t.dst → s.issued = t.issued → s.rsp = t.rsp →
    initsFirst false false false s.issued = true →
    seen (Host.Core.run Sys2Proof.core k s) = seen (Host.Core.run Sys2Proof.core k t)

/-- 30_encoding.md R57, R58, R63, under a premise that is the model's own (log entry 7, DEDUCED): `Config.wf` asks for
three distinct negative error codes in range and for `RET_W` of 17 or more, a limit the spec does not state. Then every
operation that answers delivers a response whose return value is a `RET_W`-bit value and whose output has at most five
bytes; a negative return value is one of the three error codes. -/
def Obligations.ResponsesFitTheirFields : Prop :=
  ∀ (i : Instr) (s t : State), s.cfg.wf = true → s.Inv → exec i s = .next t →
    ∃ r, t.rsp = some r ∧ r.fits s.cfg ∧
      ∀ v : Int, (r = .final v ∨ (∃ c, r = .counted v c) ∨ (∃ ev out, r = .prim v ev out)) → v < 0 →
        v = s.cfg.errUnspec ∨ v = s.cfg.errCrc ∨ v = s.cfg.errFrame

/-- 30_encoding.md R63, 93_implementation_defined.md U9: a macro-operation with `cap` or `n` above 2^(RET_W-1) - 1 is
refused. -/
def Obligations.MacroOperandsOutOfRangeAreRefused : Prop :=
  ∀ (s : State) (cap : Nat) (src : List Byte),
    (2 ^ (s.cfg.retW - 1) - 1 < cap ∨ 2 ^ (s.cfg.retW - 1) - 1 < src.length →
      exec (.rxUnpack cap src) s = .refused .operandRange ∧ exec (.txPack cap src) s = .refused .operandRange) ∧
    (2 ^ (s.cfg.retW - 1) - 1 < cap → exec (.txFinalize cap) s = .refused .operandRange)

/-- 30_encoding.md R55, R56, R57: the state codes, the event codes, and the return codes with their bits at
`RET_W = 32`. -/
def Obligations.StateEventAndReturnCodes : Prop :=
  (CtxState.code .idle = 0 ∧ CtxState.code .start = 1 ∧ CtxState.code .data = 2 ∧ CtxState.code .escaped = 3) ∧
  (Event.code .none = 0 ∧ Event.code .frameOk = 1 ∧ Event.code .errCrc = 2 ∧ Event.code .errFrame = 3) ∧
  (Config.default.errUnspec = -1 ∧ Config.default.errCrc = -2 ∧ Config.default.errFrame = -3) ∧
  (returnBits Config.default (-1)).toNat = 0xFFFFFFFF ∧ (returnBits Config.default (-2)).toNat = 0xFFFFFFFE ∧
  (returnBits Config.default (-3)).toNat = 0xFFFFFFFD

/-! ### The CRC engine -/

/-- 40_crc.md R69, R70: the table has 256 entries, entry `i` being `crc_update(0x0000, i)`; the table form equals the
bit-serial form on every accumulator and byte, and the table is the only one for which it does. -/
def Obligations.CrcTableFormIsTheEngine : Prop :=
  crcTable.length = TABLE_N ∧ (∀ i : Byte, tableEntry i = crcUpdate 0x0000 i) ∧
  (∀ (a : Word) (b : Byte), crcUpdate a b = (a <<< 8) ^^^ tableEntry ((a >>> 8).setWidth 8 ^^^ b)) ∧
  (∀ T : Byte → Word, (∀ (a : Word) (b : Byte), crcUpdate a b = (a <<< 8) ^^^ T ((a >>> 8).setWidth 8 ^^^ b)) →
    ∀ i, T i = tableEntry i)

/-- 40_crc.md R76 item b: `crc_update` is linear over XOR in the pair of its arguments. -/
def Obligations.CrcUpdateIsLinear : Prop :=
  crcUpdate 0x0000 0x00 = 0x0000 ∧
  ∀ (a a' : Word) (b b' : Byte), crcUpdate (a ^^^ a') (b ^^^ b') = crcUpdate a b ^^^ crcUpdate a' b'

/-- 40_crc.md R77 item c: feeding a checksum back high byte first gives zero; low byte first, as this block sends it,
does not give a constant. -/
def Obligations.CrcResidueIsHighByteFirst : Prop :=
  (∀ c : Word, crcUpdate (crcUpdate c (crcHigh c)) (crcLow c) = 0x0000) ∧
  crcUpdate (crcUpdate 0xFFFF (crcLow 0xFFFF)) (crcHigh 0xFFFF) = 0x0000 ∧
  crcUpdate (crcUpdate 0xB915 (crcLow 0xB915)) (crcHigh 0xB915) = 0x2C75 ∧
  crcUpdate (crcUpdate 0x29B1 (crcLow 0x29B1)) (crcHigh 0x29B1) = 0x93F3

/-- 41_rx_deframer.md R104 (the part it says holds): changing one byte of a list, its length unchanged, changes its
checksum; so two frames of one length that differ in one data byte never carry the same CRC. -/
def Obligations.OneChangedByteChangesTheCrc : Prop :=
  ∀ (pre post : List Byte) (b b' : Byte), b ≠ b' → crcOf (pre ++ b :: post) ≠ crcOf (pre ++ b' :: post)

/-- 40_crc.md R74: `CRC.INIT`. -/
def Obligations.CrcInitRestartsTheAccumulator : Prop :=
  decode 0x0000 = .instr .crcInit ∧
  ∀ s : State, exec .crcInit s =
    .next { s with crc := { acc := 0xFFFF }, rsp := some (.prim 65535 .none []) }

/-- 40_crc.md R75: `CRC.UPDATE b`; 40_crc.md R68: `crc_update` is the bit-serial loop of eight shift steps. -/
def Obligations.CrcUpdateFoldsOneByte : Prop :=
  (∀ b : Byte, decode (0x0100 ||| b.setWidth 16) = .instr (.crcUpdate b)) ∧
  (∀ (s : State) (b : Byte), exec (.crcUpdate b) s =
    .next { s with crc := { acc := crcUpdate s.crc.acc b },
                   rsp := some (.prim (crcUpdate s.crc.acc b).toNat .none []) }) ∧
  (∀ (a : Word) (b : Byte), crcUpdate a b =
    (fun x : Word => if x.getLsbD 15 then ((x <<< 1) &&& 0xFFFF) ^^^ 0x1021 else (x <<< 1) &&& 0xFFFF)^[8]
      (a ^^^ (b.setWidth 16 <<< 8))) ∧
  crcUpdate 0x0000 0x00 = 0x0000 ∧ crcUpdate 0xFFFF 0x31 = 0xC782

/-- 40_crc.md R73: the running checksum: `crc_of` of the empty list and of a list with a byte more, and, on the machine,
feeding `m` into an accumulator that holds `crc_of(l)` gives `crc_of(l ++ m)`, the responses being the accumulator's
values on the way; nothing else changes. -/
def Obligations.ChecksumRunsOverAStream : Prop :=
  crcOf [] = 0xFFFF ∧ (∀ l b, crcOf (l ++ [b]) = crcUpdate (crcOf l) b) ∧
  ∀ (l m : List Byte) (s : State), s.crc.acc = crcOf l →
    ∃ rs t, runOps (m.map .crcUpdate) s = some (rs, t) ∧ t.crc.acc = crcOf (l ++ m) ∧
      t.rx = s.rx ∧ t.tx = s.tx ∧ t.dst = s.dst ∧
      rs = m.inits.tail.map fun q => Response.prim (crcOf (l ++ q)).toNat .none []

/-! ### The deframer: primitives -/

/-- 41_rx_deframer.md R81: `rx_accept`, the two-byte lag: its effect, and that the byte it emits is the one accepted two
steps earlier. -/
def Obligations.AcceptLagsByTwoBytes : Prop :=
  ∀ (x : RxCtx) (d : Byte),
    let older := if x.cnt % 2 = 0 then x.lb0 else x.lb1
    let lb0' := if x.cnt % 2 = 0 then d else x.lb0
    let lb1' := if x.cnt % 2 = 0 then x.lb1 else d
    (2 ≤ x.cnt → rxAccept x d =
      { ctx := { st := .data, crc := crcUpdate x.crc older, cnt := x.cnt + 1, lb0 := lb0', lb1 := lb1' }
        out := [older], ev := .none }) ∧
    (x.cnt < 2 → rxAccept x d =
      { ctx := { st := .data, crc := x.crc, cnt := x.cnt + 1, lb0 := lb0', lb1 := lb1' }, out := [], ev := .none }) ∧
    (∀ d1 d2 : Byte, (rxAccept (rxAccept (rxAccept x d).ctx d1).ctx d2).out = [d])

/-- 41_rx_deframer.md R88: `RX.INIT`; in `IDLE` it changes nothing. -/
def Obligations.RxInitAbandonsTheFrame : Prop :=
  decode 0x2000 = .instr .rxInit ∧
  (∀ s : State, exec .rxInit s =
    .next { s with rx := { st := .idle, crc := 0xFFFF, cnt := 0, lb0 := 0x00, lb1 := 0x00 },
                   rsp := some (.prim 0 .none []) }) ∧
  doneFlag RxCtx.reset = true ∧
  (∀ s t : State, RxInv s.cfg s.rx → s.rx.st = .idle → exec .rxInit s = .next t → t.rx = s.rx)

/-- 41_rx_deframer.md R82: a byte in state `IDLE`. -/
def Obligations.RxByteInIdle : Prop :=
  ∀ (s : State) (b : Byte), s.rx.st = .idle →
    exec (.rxByte b) s =
      .next { s with rx := { s.rx with st := if b = FLAG then .start else .idle },
                     rsp := some (.prim 0 .none []) }

/-- 41_rx_deframer.md R83: a byte in state `START`. -/
def Obligations.RxByteInStart : Prop :=
  ∀ (s : State) (b : Byte), s.rx.st = .start →
    (b = FLAG → exec (.rxByte b) s = .next { s with rsp := some (.prim 0 .none []) }) ∧
    (b = ESC → exec (.rxByte b) s =
      .next { s with rx := { s.rx with st := .escaped }, rsp := some (.prim 0 .none []) }) ∧
    (b ≠ FLAG → b ≠ ESC → s.rx.cnt + 1 < 2 ^ s.cfg.countW → exec (.rxByte b) s =
      .next { s with rx := (rxAccept s.rx b).ctx,
                     rsp := some (.prim (rxAccept s.rx b).out.length .none (rxAccept s.rx b).out) }) ∧
    (s.rx.cnt = 0 → (rxAccept s.rx b).out = [])

/-- 41_rx_deframer.md R84: a byte that is not the flag, in state `DATA`. -/
def Obligations.RxByteInData : Prop :=
  ∀ (s : State) (b : Byte), s.rx.st = .data → b ≠ FLAG →
    (b = ESC → exec (.rxByte b) s =
      .next { s with rx := { s.rx with st := .escaped }, rsp := some (.prim 0 .none []) }) ∧
    (b ≠ ESC → s.rx.cnt + 1 < 2 ^ s.cfg.countW → exec (.rxByte b) s =
      .next { s with rx := (rxAccept s.rx b).ctx,
                     rsp := some (.prim (rxAccept s.rx b).out.length .none (rxAccept s.rx b).out) })

/-- 41_rx_deframer.md R85, 60_exceptions.md R126: the closing flag. The received CRC is the older buffered byte as bits
7:0 and the newer as bits 15:8; fewer than two data bytes are a mismatch; the whole context takes its reset value. -/
def Obligations.RxClosingFlagComparesTheCrc : Prop :=
  ∀ s : State, s.rx.st = .data →
    let lo := if s.rx.cnt % 2 = 0 then s.rx.lb0 else s.rx.lb1
    let hi := if s.rx.cnt % 2 = 0 then s.rx.lb1 else s.rx.lb0
    let fresh : RxCtx := { st := .idle, crc := 0xFFFF, cnt := 0, lb0 := 0x00, lb1 := 0x00 }
    (2 ≤ s.rx.cnt ∧ hi ++ lo = s.rx.crc →
      exec (.rxByte FLAG) s = .next { s with rx := fresh, rsp := some (.prim 0 .frameOk []) }) ∧
    (¬(2 ≤ s.rx.cnt ∧ hi ++ lo = s.rx.crc) →
      exec (.rxByte FLAG) s = .next { s with rx := fresh, rsp := some (.prim s.cfg.errCrc .errCrc []) })

/-- 41_rx_deframer.md R86, 60_exceptions.md R127: a byte in state `ESCAPED`. -/
def Obligations.RxByteInEscaped : Prop :=
  ∀ (s : State) (b : Byte), s.rx.st = .escaped →
    (b = FLAG ∨ b = ESC → exec (.rxByte b) s =
      .next { s with rx := { st := .idle, crc := 0xFFFF, cnt := 0, lb0 := 0x00, lb1 := 0x00 },
                     rsp := some (.prim s.cfg.errFrame .errFrame []) }) ∧
    (b ≠ FLAG → b ≠ ESC → s.rx.cnt + 1 < 2 ^ s.cfg.countW → exec (.rxByte b) s =
      .next { s with rx := (rxAccept s.rx (b ^^^ MASK)).ctx,
                     rsp := some (.prim (rxAccept s.rx (b ^^^ MASK)).out.length .none
                                        (rxAccept s.rx (b ^^^ MASK)).out) })

/-- 41_rx_deframer.md R96: a receive step that would accept a data byte at a full count is refused; that a count above
the limit, which no run reaches, is refused too is the model's (log entry 8, DEDUCED). -/
def Obligations.RxByteAtFullCountIsRefused : Prop :=
  ∀ (s : State) (b : Byte), 2 ^ s.cfg.countW - 1 ≤ s.rx.cnt → s.rx.st ≠ .idle → b ≠ FLAG → b ≠ ESC →
    exec (.rxByte b) s = .refused .countOverflow

/-- 41_rx_deframer.md R90, 10_state.md R24: `RX.DONE`. -/
def Obligations.RxDoneReportsIdle : Prop :=
  decode 0x2200 = .instr .rxDone ∧
  ∀ s : State,
    (s.rx.st = .idle → exec .rxDone s = .next { s with rsp := some (.prim 1 .none []) }) ∧
    (s.rx.st ≠ .idle → exec .rxDone s = .next { s with rsp := some (.prim 0 .none []) })

/-- 41_rx_deframer.md R87: the transition table, and 60_exceptions.md R131: which cell raises which event. -/
def Obligations.RxTransitionTable : Prop :=
  ∀ (x : RxCtx) (b : Byte),
    (b = FLAG → (rxStep x b).ctx.st = match x.st with
      | .idle => .start | .start => .start | .data => .idle | .escaped => .idle) ∧
    (b = ESC → (rxStep x b).ctx.st = match x.st with
      | .idle => .idle | .start => .escaped | .data => .escaped | .escaped => .idle) ∧
    (b ≠ FLAG → b ≠ ESC → (rxStep x b).ctx.st = match x.st with
      | .idle => .idle | .start => .data | .data => .data | .escaped => .data) ∧
    ((rxStep x b).ev = .frameOk ∨ (rxStep x b).ev = .errCrc ↔ x.st = .data ∧ b = FLAG) ∧
    ((rxStep x b).ev = .errFrame ↔ x.st = .escaped ∧ (b = FLAG ∨ b = ESC)) ∧
    ((rxStep x b).ev ≠ .none → (rxStep x b).ctx = RxCtx.reset ∧ (rxStep x b).out = [])

/-- 41_rx_deframer.md R91: `rx_would_emit` says whether the step would emit a byte. -/
def Obligations.WouldEmitPredictsTheStep : Prop :=
  ∀ (x : RxCtx) (b : Byte),
    (rxWouldEmit x b = true ↔ (rxStep x b).out ≠ []) ∧
    (rxWouldEmit x b = true ↔ x.st ≠ .idle ∧ b ≠ FLAG ∧ b ≠ ESC ∧ 2 ≤ x.cnt)

/-- 41_rx_deframer.md R87: whatever the host does in one step, the deframer leaves `IDLE` only on a flag byte, and it
comes into `IDLE` only by `RX.INIT` or by a byte 0x7E or 0x7D. -/
def Obligations.OnlyAFlagOpensAFrame : Prop :=
  ∀ s t : State, step s = .next t →
    (s.rx.st = .idle → t.rx.st ≠ .idle →
      ∃ r rest, s.issued = .issue r :: rest ∧
        (decodeRequest r = .instr (.rxByte FLAG) ∨
          ∃ cap src, decodeRequest r = .instr (.rxUnpack cap src) ∧ FLAG ∈ src)) ∧
    (s.rx.st ≠ .idle → t.rx.st = .idle →
      ∃ r rest, s.issued = .issue r :: rest ∧
        (decodeRequest r = .instr .rxInit ∨
          (∃ b, (b = FLAG ∨ b = ESC) ∧ decodeRequest r = .instr (.rxByte b)) ∨
          ∃ cap src, decodeRequest r = .instr (.rxUnpack cap src) ∧ (FLAG ∈ src ∨ ESC ∈ src)))

/-- 41_rx_deframer.md R89: `RX.BYTE b` is `rx_step`, its output and event are reported, and `resp` is the number of
bytes out or the error's code; it is refused where it would accept at a full count (R96; above the limit: log entry 8,
DEDUCED), and an event comes without output; R80: on each byte of a list it is the deframer fed with the list: the same
context, the same bytes out, the same events, whatever the other channels hold. -/
def Obligations.RxBytesFeedTheDeframer : Prop :=
  (∀ b : Byte, decode (0x2100 ||| b.setWidth 16) = .instr (.rxByte b)) ∧
  (∀ (s : State) (b : Byte), (rxWouldAccept s.rx b = true → s.rx.cnt + 1 < 2 ^ s.cfg.countW) →
    exec (.rxByte b) s = .next { s with
      rx := (rxStep s.rx b).ctx
      rsp := some (.prim
        (if (rxStep s.rx b).ev = .errCrc then s.cfg.errCrc
         else if (rxStep s.rx b).ev = .errFrame then s.cfg.errFrame else (rxStep s.rx b).out.length)
        (rxStep s.rx b).ev (rxStep s.rx b).out) }) ∧
  (∀ (s : State) (b : Byte), rxWouldAccept s.rx b = true → 2 ^ s.cfg.countW - 1 ≤ s.rx.cnt →
    exec (.rxByte b) s = .refused .countOverflow) ∧
  (∀ (x : RxCtx) (b : Byte), (rxStep x b).ev ≠ .none → (rxStep x b).out = []) ∧
  (∀ (bs : List Byte) (s : State), s.rx.cnt + bs.length < 2 ^ s.cfg.countW →
    ∃ rs t, runOps (bs.map .rxByte) s = some (rs, t) ∧ t.rx = (rxFeed s.rx bs).ctx ∧
      rs.flatMap Response.out = (rxFeed s.rx bs).out ∧ rs.map Response.event = (rxFeed s.rx bs).evs ∧
      t.crc = s.crc ∧ t.tx = s.tx ∧ t.dst = s.dst)

/-- 10_state.md R16, R27, R28 item d: as long as no event is reported, the receive CRC is advanced by exactly the bytes
emitted, however long the input. -/
def Obligations.RxCrcCoversEmittedBytes : Prop :=
  ∀ (x : RxCtx) (bs : List Byte), (rxFeed x bs).quiet →
    (rxFeed x bs).ctx.crc = (rxFeed x bs).out.foldl crcUpdate x.crc

/-- 30_encoding.md R51, 41_rx_deframer.md R82 to R86, R99: what the deframer makes of any wire in the grammar `garbage*
FLAG FLAG* unit* FLAG` with at least one unit, plain or escaped: no event before the last byte; all data bytes but the
last two delivered, in order; a good frame exactly when those two are the CRC of the others, low byte first, and a CRC
error otherwise; and then the reset context. -/
def Obligations.DeframerReadsTheWireGrammar : Prop :=
  ∀ (garbage : List Byte) (n : Nat) (units : List WireUnit),
    FLAG ∉ garbage → units ≠ [] → (∀ u ∈ units, u.legal = true) →
    let d := units.map WireUnit.byte
    let wire := garbage ++ FLAG :: List.replicate n FLAG ++ units.flatMap WireUnit.bytes
    rxFeed RxCtx.reset (wire ++ [FLAG]) =
      { ctx := RxCtx.reset
        out := d.take (d.length - 2)
        evs := List.replicate wire.length .none ++ [if goodData d then .frameOk else .errCrc] }

/-- 41_rx_deframer.md R101: the empty frame and the too-short frames. -/
def Obligations.ShortFrames : Prop :=
  rxFeed RxCtx.reset [0x7E, 0xFF, 0xFF, 0x7E] =
    { ctx := RxCtx.reset, out := [], evs := [.none, .none, .none, .frameOk] } ∧
  rxFeed RxCtx.reset [0x7E, 0x7E] = { ctx := { RxCtx.reset with st := .start }, out := [], evs := [.none, .none] } ∧
  (∀ x : Byte, x ≠ 0x7E → x ≠ 0x7D → rxFeed RxCtx.reset [0x7E, x, 0x7E] =
    { ctx := RxCtx.reset, out := [], evs := [.none, .none, .errCrc] }) ∧
  (∀ x y : Byte, x ≠ 0x7E → x ≠ 0x7D → y ≠ 0x7E → y ≠ 0x7D → rxFeed RxCtx.reset [0x7E, x, y, 0x7E] =
    { ctx := RxCtx.reset, out := []
      evs := [.none, .none, .none, if x = 0xFF ∧ y = 0xFF then .frameOk else .errCrc] })

/-! ### The deframer: `RX.UNPACK` -/

/-- 41_rx_deframer.md R92, R93, R94, R97: where no accept meets a full count, `RX.UNPACK` answers, and in one of the
five ways: it has stepped the first `k` bytes of the source; the bytes they emitted are in the destination from offset
0 on, also after an error; every other cell, channel `CRC` and channel `TX` are as before. -/
def Obligations.UnpackEndsOneOfFiveWays : Prop :=
  ∀ (s : State) (cap : Nat) (src : List Byte), capOk s.cfg cap = true → srcOk s.cfg src = true →
    UnpackRoom s.cfg cap 0 s.rx src →
    ∃ k ret consumed d, k ≤ src.length ∧
      exec (.rxUnpack cap src) s =
        .next { s with rx := (rxFeed s.rx (src.take k)).ctx, dst := d, rsp := some (.counted ret consumed) } ∧
      (rxFeed s.rx (src.take k)).out.length ≤ cap ∧
      (∀ a, Memory.read d a = if a < (rxFeed s.rx (src.take k)).out.length
        then (rxFeed s.rx (src.take k)).out[a]? else Memory.read s.dst a) ∧
      UnpackEnding s.cfg cap src 0 0 k (rxFeed s.rx (src.take k)) ret consumed

/-- The model's reading (log entries 21 and 8, DEDUCED) of 41_rx_deframer.md R96, which refuses the step that would
accept at a count equal to the limit: where an accept meets such a count, or a larger one, the whole call of `RX.UNPACK`
is refused and no step of it leaves a trace. -/
def Obligations.UnpackAtFullCountIsRefused : Prop :=
  ∀ (s : State) (cap : Nat) (src : List Byte), capOk s.cfg cap = true → srcOk s.cfg src = true →
    ¬UnpackRoom s.cfg cap 0 s.rx src → exec (.rxUnpack cap src) s = .refused .countOverflow

/-- 41_rx_deframer.md R95: what a caller can conclude, for parameters that meet `Config.wf` (log entries 7 and 22,
DEDUCED): the test of R95 holds exactly when the call stepped the closing flag of a good frame; a negative return value
leaves the reset context; and where everything is consumed without an error no frame boundary was reached. -/
def Obligations.CallerRecognisesACompletedFrame : Prop :=
  ∀ (s t : State) (cap : Nat) (src : List Byte) (ret : Int) (consumed : Nat), s.cfg.wf = true →
    exec (.rxUnpack cap src) s = .next t → t.rsp = some (.counted ret consumed) →
    (frameCompleted src ret consumed t.rx = true ↔
      ∃ k, k ≤ src.length ∧ (rxFeed s.rx (src.take k)).endsWith .frameOk ∧ consumed = k - 1 ∧
        ret = (rxFeed s.rx (src.take k)).out.length) ∧
    (ret < 0 → t.rx = RxCtx.reset ∧ doneFlag t.rx = true) ∧
    (0 ≤ ret → consumed = src.length → (rxFeed s.rx src).quiet ∧ t.rx = (rxFeed s.rx src).ctx)

/-- 41_rx_deframer.md R102: a call consumes nothing and leaves the context as it was only when there is no source byte,
or when `cap = 0` and the first byte must emit. -/
def Obligations.UnpackProgress : Prop :=
  ∀ (s t : State) (cap : Nat) (src : List Byte) (ret : Int),
    exec (.rxUnpack cap src) s = .next t → t.rsp = some (.counted ret 0) → t.rx = s.rx →
    src = [] ∨ (cap = 0 ∧ ∃ b rest, src = b :: rest ∧ rxWouldEmit s.rx b = true)

/-- 41_rx_deframer.md R98: the round trip on the machine. A host that takes in `frame(p)` from a reset receive channel,
cut into chunks and offered with capacities as any schedule says, gets a prefix of `p` so far and, when a call completes
the frame, exactly `p`, with the closing flag alone left over; and a schedule of chunks and capacities of at least one
byte, as long as the frame, completes it. -/
def Obligations.FrameRoundTripsUnderAnyChunking : Prop :=
  ∀ (p : List Byte) (s : State) (sched : List (Nat × Nat)),
    s.rx = RxCtx.reset → p.length + 3 ≤ 2 ^ s.cfg.countW →
    (∀ c ∈ sched, c.1 ≤ s.cfg.maxCount ∧ c.2 ≤ s.cfg.maxCount) →
    ∃ r, hostReceive sched (frame p) [] s = some r ∧
      (r.complete = false → ∃ q, p = r.payload ++ q) ∧
      (r.complete = true → r.payload = p ∧ r.link = [FLAG] ∧ r.state.rx = RxCtx.reset) ∧
      ((∀ c ∈ sched, 1 ≤ c.1 ∧ 1 ≤ c.2) → (frame p).length ≤ sched.length → r.complete = true)

/-- 41_rx_deframer.md R99: from the reset context, bytes without a flag and then `frame(p)` in one call deliver `p`; the
leading bytes are consumed. -/
def Obligations.GarbageThenFrameDeliversTheFrame : Prop :=
  ∀ (g p : List Byte) (s : State) (cap : Nat), s.rx = RxCtx.reset → FLAG ∉ g → p.length + 3 ≤ 2 ^ s.cfg.countW →
    capOk s.cfg cap = true → srcOk s.cfg (g ++ frame p) = true → p.length ≤ cap →
    ∃ t, exec (.rxUnpack cap (g ++ frame p)) s = .next t ∧ t.rx = RxCtx.reset ∧
      t.rsp = some (.counted p.length (g.length + ((frame p).length - 1))) ∧
      Memory.firstBytes t.dst p.length = p

/-- 41_rx_deframer.md R100: two frames in one source: call one delivers the first payload and stops before its closing
flag; call two, given the rest, delivers the second. -/
def Obligations.TwoFramesTakeTwoCalls : Prop :=
  ∀ (p q : List Byte) (s : State) (cap : Nat), s.rx = RxCtx.reset →
    p.length + 3 ≤ 2 ^ s.cfg.countW → q.length + 3 ≤ 2 ^ s.cfg.countW →
    capOk s.cfg cap = true → srcOk s.cfg (frame p ++ frame q) = true → p.length ≤ cap → q.length ≤ cap →
    ∃ t u, exec (.rxUnpack cap (frame p ++ frame q)) s = .next t ∧
      t.rsp = some (.counted p.length ((frame p).length - 1)) ∧ Memory.firstBytes t.dst p.length = p ∧
      exec (.rxUnpack cap ((frame p ++ frame q).drop ((frame p).length - 1))) t = .next u ∧
      u.rsp = some (.counted q.length (frame q).length) ∧ Memory.firstBytes u.dst q.length = q ∧
      u.rx = RxCtx.reset

/-! ### The framer: primitives -/

/-- 30_encoding.md R47, 42_tx_framer.md R106: the reserved values, and `tx_esc`; no element of it is 0x7E, and 0x7D
appears only as the first element of a pair. -/
def Obligations.EscapeHidesReservedBytes : Prop :=
  (FLAG = 0x7E ∧ ESC = 0x7D ∧ MASK = 0x20) ∧
  ∀ b : Byte,
    (b = 0x7E ∨ b = 0x7D → txEsc b = [0x7D, b ^^^ 0x20]) ∧ (b ≠ 0x7E → b ≠ 0x7D → txEsc b = [b]) ∧
    0x7E ∉ txEsc b ∧ 0x7D ∉ (txEsc b).drop 1 ∧ ((txEsc b)[0]? = some 0x7D → (txEsc b).length = 2)

/-- 42_tx_framer.md R107: `TX.INIT`. -/
def Obligations.TxInitResetsTheFramer : Prop :=
  decode 0x1000 = .instr .txInit ∧
  ∀ s : State, exec .txInit s =
    .next { s with tx := { st := .idle, crc := 0xFFFF, cnt := 0 }, rsp := some (.prim 0 .none []) }

/-- 42_tx_framer.md R108: `TX.OPEN`. -/
def Obligations.TxOpenEmitsTheFlagOnce : Prop :=
  decode 0x1200 = .instr .txOpen ∧
  ∀ s : State,
    (s.tx.st = .idle → exec .txOpen s =
      .next { s with tx := { s.tx with st := .data }, rsp := some (.prim 1 .none [FLAG]) }) ∧
    (s.tx.st ≠ .idle → exec .txOpen s = .next { s with rsp := some (.prim 0 .none []) })

/-- 42_tx_framer.md R109, R118: `TX.BYTE b`, and its refusal at a full count; that a count above the limit, which no run
reaches, is refused too is the model's (log entry 8, DEDUCED). -/
def Obligations.TxByteEscapesAndFolds : Prop :=
  (∀ b : Byte, decode (0x1100 ||| b.setWidth 16) = .instr (.txByte b)) ∧
  ∀ (s : State) (b : Byte),
    let out : List Byte := (if s.tx.st = .idle then [FLAG] else []) ++ txEsc b
    (s.tx.cnt + 1 < 2 ^ s.cfg.countW → exec (.txByte b) s =
      .next { s with tx := { st := if s.tx.st = .idle then .data else s.tx.st,
                             crc := crcUpdate s.tx.crc b, cnt := s.tx.cnt + 1 },
                     rsp := some (.prim out.length .none out) }) ∧
    (2 ^ s.cfg.countW - 1 ≤ s.tx.cnt → exec (.txByte b) s = .refused .countOverflow)

/-- 42_tx_framer.md R110: `TX.FINAL`; by the invariants of 10_state.md R29 three to five bytes come out. -/
def Obligations.TxFinalClosesTheFrame : Prop :=
  decode 0x1300 = .instr .txFinal ∧
  ∀ s : State,
    let c := s.tx.crc
    let out : List Byte := (if s.tx.st = .idle then [FLAG] else []) ++ txEsc (c.setWidth 8) ++ txEsc ((c >>> 8).setWidth 8) ++ [FLAG]
    exec .txFinal s =
      .next { s with tx := { st := .idle, crc := 0xFFFF, cnt := 0 }, rsp := some (.prim out.length .none out) } ∧
    (TxInv s.cfg s.tx → 3 ≤ out.length ∧ out.length ≤ 5)

/-- 42_tx_framer.md R116, R117: `TX.BYTE` for each byte of a payload and then `TX.FINAL`, from a reset framer, put out
exactly `frame(p)`. -/
def Obligations.TxPrimitivesBuildTheFrame : Prop :=
  ∀ (p : List Byte) (s : State), s.tx = TxCtx.reset → p.length < 2 ^ s.cfg.countW →
    ∃ rs t, runOps (p.map .txByte ++ [.txFinal]) s = some (rs, t) ∧ rs.flatMap Response.out = frame p ∧
      t.tx = TxCtx.reset ∧ t.rx = s.rx ∧ t.crc = s.crc

/-! ### The framer: `TX.PACK` and `TX.FINALIZE` -/

/-- 42_tx_framer.md R111, R112: where the loop meets no full count, `TX.PACK` answers. If the opening flag is due and
has no room, nothing happens. Otherwise the first `k` bytes are packed as whole units after the flag that was due, `k`
being all of them or the next unit not fitting; every other cell, channel `CRC` and channel `RX` are as before. -/
def Obligations.PackFillsTheDestinationWithWholeUnits : Prop :=
  ∀ (s : State) (cap : Nat) (src : List Byte), capOk s.cfg cap = true → srcOk s.cfg src = true →
    let open' : List Byte := if s.tx.st = .idle then [FLAG] else []
    (cap < open'.length → exec (.txPack cap src) s = .next { s with rsp := some (.counted 0 0) }) ∧
    (open'.length ≤ cap → PackRoom s.cfg cap open'.length s.tx src →
      ∃ k d, k ≤ src.length ∧
        let out := open' ++ (src.take k).flatMap txEsc
        exec (.txPack cap src) s =
          .next { s with tx := { st := if s.tx.st = .idle then .data else s.tx.st,
                                 crc := (src.take k).foldl crcUpdate s.tx.crc, cnt := s.tx.cnt + k },
                         dst := d, rsp := some (.counted out.length k) } ∧
        out.length ≤ cap ∧
        (∀ a, Memory.read d a = if a < out.length then out[a]? else Memory.read s.dst a) ∧
        (k = src.length ∨ ∃ b, src[k]? = some b ∧ cap < out.length + (txEsc b).length))

/-- The model's reading (log entries 9, 21 and 8, DEDUCED) of 42_tx_framer.md R118, which refuses the loop body at a
count equal to the limit: where the loop body begins with a source byte left at such a count, or a larger one, the whole
call of `TX.PACK` is refused and no step of it leaves a trace. -/
def Obligations.PackAtFullCountIsRefused : Prop :=
  ∀ (s : State) (cap : Nat) (src : List Byte), capOk s.cfg cap = true → srcOk s.cfg src = true →
    (txOpenOut s.tx).length ≤ cap → ¬PackRoom s.cfg cap (txOpenOut s.tx).length s.tx src →
    exec (.txPack cap src) s = .refused .countOverflow

/-- 42_tx_framer.md R120: a call packs nothing and writes nothing only when there is no source byte and the frame is
open, or `cap = 0`, or `cap = 1` with the frame open and the next byte reserved. -/
def Obligations.PackProgress : Prop :=
  ∀ (s t : State) (cap : Nat) (src : List Byte), exec (.txPack cap src) s = .next t →
    t.rsp = some (.counted 0 0) →
    (src = [] ∧ s.tx.st ≠ .idle) ∨ cap = 0 ∨
      (cap = 1 ∧ s.tx.st ≠ .idle ∧ ∃ b rest, src = b :: rest ∧ (b = FLAG ∨ b = ESC))

/-- 42_tx_framer.md R113, 60_exceptions.md R128: `TX.FINALIZE`. With too little space it answers `ERR_UNSPEC` and
changes nothing; otherwise the CRC and the closing flag (after the opening flag, when no frame was open) are in the
destination, every other cell is as before, and the framer is reset. -/
def Obligations.FinalizeWritesTheTrailerOrNothing : Prop :=
  ∀ (s : State) (cap : Nat), capOk s.cfg cap = true →
    let c := s.tx.crc
    let out : List Byte := (if s.tx.st = .idle then [FLAG] else []) ++ txEsc (c.setWidth 8) ++ txEsc ((c >>> 8).setWidth 8) ++ [FLAG]
    (cap < out.length → exec (.txFinalize cap) s = .next { s with rsp := some (.final s.cfg.errUnspec) }) ∧
    (out.length ≤ cap → ∃ d,
      exec (.txFinalize cap) s =
        .next { s with tx := { st := .idle, crc := 0xFFFF, cnt := 0 }, dst := d, rsp := some (.final out.length) } ∧
      ∀ a, Memory.read d a = if a < out.length then out[a]? else Memory.read s.dst a)

/-- 42_tx_framer.md R114: the space `TX.FINALIZE` needs is 3, 4 or 5, and exactly 4 when nothing was packed, the output
then being `7E FF FF 7E`; with 5 free bytes it never answers `ERR_UNSPEC`. -/
def Obligations.FinalizeNeedsThreeToFive : Prop :=
  ∀ s : State, TxInv s.cfg s.tx →
    (finalizeNeed s.tx = 3 ∨ finalizeNeed s.tx = 4 ∨ finalizeNeed s.tx = 5) ∧
    (txFinalOut s.tx).length = finalizeNeed s.tx ∧
    (s.tx.st = .idle → finalizeNeed s.tx = 4 ∧ txFinalOut s.tx = [0x7E, 0xFF, 0xFF, 0x7E]) ∧
    (∀ cap, 5 ≤ cap → capOk s.cfg cap = true →
      ∃ t, exec (.txFinalize cap) s = .next t ∧ t.rsp = some (.final (finalizeNeed s.tx)))

/-- 42_tx_framer.md R115, 30_encoding.md R60: between the two flags of a frame no byte is 0x7E and every 0x7D is
followed by 0x5E or 0x5D; a frame of `k` payload bytes has between `k + 4` and `2k + 6` wire bytes. -/
def Obligations.FramesAreTransparent : Prop :=
  ∀ p : List Byte,
    (∃ body : List Byte, frame p = [0x7E] ++ body ++ [0x7E] ∧ 0x7E ∉ body ∧
      ∀ j : Nat, body[j]? = some 0x7D → body[j + 1]? = some 0x5E ∨ body[j + 1]? = some 0x5D) ∧
    p.length + 4 ≤ (frame p).length ∧ (frame p).length ≤ 2 * p.length + 6

/-- 42_tx_framer.md R117: streaming equals one shot. A host that streams a payload out from a reset framer in calls of
any sizes has sent, when the payload is used up, all of `frame(p)` but the trailer, which one `TX.FINALIZE` with five
free bytes adds. -/
def Obligations.StreamedFrameEqualsOneShot : Prop :=
  ∀ (p : List Byte) (s : State) (sched : List (Nat × Nat)) (cap : Nat),
    s.tx = TxCtx.reset → p.length < 2 ^ s.cfg.countW →
    (∀ c ∈ sched, c.1 ≤ s.cfg.maxCount ∧ c.2 ≤ s.cfg.maxCount) → 5 ≤ cap → cap ≤ s.cfg.maxCount →
    ∃ r, hostSend sched p [] s = some r ∧
      (r.rest = [] → ∃ u n, exec (.txFinalize cap) r.state = .next u ∧ u.rsp = some (.final (n : Nat)) ∧
        r.wire ++ Memory.firstBytes u.dst n = frame p ∧ u.tx = TxCtx.reset) ∧
      ((∀ c ∈ sched, 3 ≤ c.1 ∧ 1 ≤ c.2) → p.length ≤ sched.length → r.rest = [])
end

