-- ==== Sys2Proof/Laws/State.lean ====
section
/-! SUPPORT. One lemma for each field of each update of a state or a context, so that no proof unfolds an update. -/

namespace Sys2Proof.Machine

/-! ### The wire constants -/

@[simp] theorem FLAG_ne_ESC : FLAG ≠ ESC := by decide
@[simp] theorem ESC_ne_FLAG : ESC ≠ FLAG := by decide


/-! ### `State.respond` -/

@[simp] theorem respond_cfg (s : State) (r : Response) : (s.respond r).cfg = s.cfg := rfl
@[simp] theorem respond_crc (s : State) (r : Response) : (s.respond r).crc = s.crc := rfl
@[simp] theorem respond_rx (s : State) (r : Response) : (s.respond r).rx = s.rx := rfl
@[simp] theorem respond_tx (s : State) (r : Response) : (s.respond r).tx = s.tx := rfl
@[simp] theorem respond_dst (s : State) (r : Response) : (s.respond r).dst = s.dst := rfl
@[simp] theorem respond_issued (s : State) (r : Response) : (s.respond r).issued = s.issued := rfl
@[simp] theorem respond_rsp (s : State) (r : Response) : (s.respond r).rsp = some r := rfl

/-! ### `lendDst` -/

@[simp] theorem lendDst_cfg (c : List Byte) (s : State) : (lendDst c s).cfg = s.cfg := rfl
@[simp] theorem lendDst_crc (c : List Byte) (s : State) : (lendDst c s).crc = s.crc := rfl
@[simp] theorem lendDst_rx (c : List Byte) (s : State) : (lendDst c s).rx = s.rx := rfl
@[simp] theorem lendDst_tx (c : List Byte) (s : State) : (lendDst c s).tx = s.tx := rfl
@[simp] theorem lendDst_dst (c : List Byte) (s : State) : (lendDst c s).dst = Memory.writeList [] 0 c := rfl
@[simp] theorem lendDst_issued (c : List Byte) (s : State) : (lendDst c s).issued = s.issued := rfl
@[simp] theorem lendDst_rsp (c : List Byte) (s : State) : (lendDst c s).rsp = s.rsp := rfl

/-! ### `State.withFetchWord` -/

@[simp] theorem withFetchWord_cfg (s : State) (n w : Nat) : (s.withFetchWord n w).cfg = s.cfg := rfl
@[simp] theorem withFetchWord_crc (s : State) (n w : Nat) : (s.withFetchWord n w).crc = s.crc := rfl
@[simp] theorem withFetchWord_rx (s : State) (n w : Nat) : (s.withFetchWord n w).rx = s.rx := rfl
@[simp] theorem withFetchWord_tx (s : State) (n w : Nat) : (s.withFetchWord n w).tx = s.tx := rfl
@[simp] theorem withFetchWord_dst (s : State) (n w : Nat) : (s.withFetchWord n w).dst = s.dst := rfl
@[simp] theorem withFetchWord_issued (s : State) (n w : Nat) :
    (s.withFetchWord n w).issued = .issue (.command (tableWord n w)) :: s.issued := rfl
@[simp] theorem withFetchWord_rsp (s : State) (n w : Nat) : (s.withFetchWord n w).rsp = s.rsp := rfl

/-! ### The reset contexts -/

@[simp] theorem rxReset_st : RxCtx.reset.st = .idle := rfl
@[simp] theorem rxReset_crc : RxCtx.reset.crc = 0xFFFF := rfl
@[simp] theorem rxReset_cnt : RxCtx.reset.cnt = 0 := rfl
@[simp] theorem rxReset_lb0 : RxCtx.reset.lb0 = 0x00 := rfl
@[simp] theorem rxReset_lb1 : RxCtx.reset.lb1 = 0x00 := rfl
@[simp] theorem txReset_st : TxCtx.reset.st = .idle := rfl
@[simp] theorem txReset_crc : TxCtx.reset.crc = 0xFFFF := rfl
@[simp] theorem txReset_cnt : TxCtx.reset.cnt = 0 := rfl

/-! ### `lbSet` and `lbGet` -/

@[simp] theorem lbSet_st (x : RxCtx) (k : Nat) (d : Byte) : (lbSet x k d).st = x.st := by
  unfold lbSet; split <;> rfl
@[simp] theorem lbSet_crc (x : RxCtx) (k : Nat) (d : Byte) : (lbSet x k d).crc = x.crc := by
  unfold lbSet; split <;> rfl
@[simp] theorem lbSet_cnt (x : RxCtx) (k : Nat) (d : Byte) : (lbSet x k d).cnt = x.cnt := by
  unfold lbSet; split <;> rfl

theorem lbSet_lb0 (x : RxCtx) (k : Nat) (d : Byte) : (lbSet x k d).lb0 = if k % 2 = 0 then d else x.lb0 := by
  unfold lbSet; split <;> rfl
theorem lbSet_lb1 (x : RxCtx) (k : Nat) (d : Byte) : (lbSet x k d).lb1 = if k % 2 = 0 then x.lb1 else d := by
  unfold lbSet; split <;> rfl

/-- The slot just written reads back, and again every two counts later. -/
theorem lbGet_lbSet_same (x : RxCtx) (k j : Nat) (d : Byte) (h : j % 2 = k % 2) : lbGet (lbSet x k d) j = d := by
  unfold lbGet; simp only [lbSet_lb0, lbSet_lb1, LB_N, h]; split <;> rfl

/-- The other slot keeps its byte. -/
theorem lbGet_lbSet_other (x : RxCtx) (k j : Nat) (d : Byte) (h : j % 2 ≠ k % 2) :
    lbGet (lbSet x k d) j = lbGet x j := by
  unfold lbGet; simp only [lbSet_lb0, lbSet_lb1, LB_N]; split <;> split <;> first | rfl | omega

/-! ### `takeEvent` -/

@[simp] theorem takeEvent_ctx (ev : Event) : (takeEvent ev).ctx = RxCtx.reset := rfl
@[simp] theorem takeEvent_out (ev : Event) : (takeEvent ev).out = [] := rfl
@[simp] theorem takeEvent_ev (ev : Event) : (takeEvent ev).ev = ev := rfl

/-! ### `txOpened` and `txFold` -/

@[simp] theorem txOpened_crc (x : TxCtx) : (txOpened x).crc = x.crc := by unfold txOpened; split <;> rfl
@[simp] theorem txOpened_cnt (x : TxCtx) : (txOpened x).cnt = x.cnt := by unfold txOpened; split <;> rfl
theorem txOpened_st (x : TxCtx) : (txOpened x).st = if x.st = .idle then .data else x.st := by
  unfold txOpened; split <;> rfl
/-- `TX.OPEN` leaves no frame closed. -/
theorem txOpened_not_idle (x : TxCtx) : (txOpened x).st ≠ .idle := by
  rw [txOpened_st]; split <;> simp_all
@[simp] theorem txFold_st (x : TxCtx) (b : Byte) : (txFold x b).st = x.st := rfl
@[simp] theorem txFold_crc (x : TxCtx) (b : Byte) : (txFold x b).crc = crcUpdate x.crc b := rfl
@[simp] theorem txFold_cnt (x : TxCtx) (b : Byte) : (txFold x b).cnt = x.cnt + 1 := rfl

end Sys2Proof.Machine
end

