-- ==== Sys2Proof/Laws/Crc.lean ====
section
/-! SUPPORT. Small lemmas of the CRC engine (40_crc.md R68, R73). -/

namespace Sys2Proof.Machine

@[simp] theorem crcOf_nil : crcOf [] = crcInit := rfl

/-- Feeding a list into an accumulator that holds a checksum continues the checksum. -/
theorem crcOf_append (l m : List Byte) : crcOf (l ++ m) = m.foldl crcUpdate (crcOf l) :=
  List.foldl_append

@[simp] theorem crcOf_snoc (l : List Byte) (b : Byte) : crcOf (l ++ [b]) = crcUpdate (crcOf l) b := by
  rw [crcOf_append]; rfl

@[simp] theorem crcShifts_zero (x : Word) : crcShifts 0 x = x := rfl
@[simp] theorem crcShifts_succ (k : Nat) (x : Word) : crcShifts (k + 1) x = crcShifts k (crcShift x) := rfl

/-- The two bytes of a CRC put together again. -/
theorem crcHigh_crcLow (c : Word) : (crcHigh c).setWidth 16 <<< 8 ||| (crcLow c).setWidth 16 = c := by
  apply BitVec.eq_of_getLsbD_eq
  intro i hi
  simp only [crcHigh, crcLow, BitVec.getLsbD_or, BitVec.getLsbD_shiftLeft, BitVec.getLsbD_setWidth,
    BitVec.getLsbD_extractLsb']
  by_cases h : i < 8
  · simp [h]; omega
  · simp [h, hi, show i - 8 < 8 by omega, show 8 + (i - 8) = i by omega]; omega

end Sys2Proof.Machine
end

