-- ==== Sys2Proof/Laws/Memory.lean ====
section
/-! SUPPORT. The laws of the destination cells: read after write, the canonical form, and what a run of writes does
(20_memory.md R32, R39). -/

namespace Sys2Proof.Machine

@[simp] theorem read_nil (a : Nat) : Memory.read [] a = none := rfl

/-- What a cell reads as after a write: the byte written at its own offset, what it was elsewhere. -/
theorem read_write (m : Memory) (a a' : Nat) (v : Byte) :
    Memory.read (Memory.write m a v) a' = if a' = a then some v else Memory.read m a' := by
  induction m with
  | nil => rfl
  | cons c m ih =>
    obtain ⟨k, u⟩ := c
    unfold Memory.write
    split
    · rfl
    · split
      · subst_vars; simp only [Memory.read]; split <;> rfl
      · simp only [Memory.read, ih]
        split
        · split
          · omega
          · rfl
        · rfl

/-- What a cell reads as after a run of writes from offset `a` on. -/
theorem read_writeList (vs : List Byte) (m : Memory) (a a' : Nat) :
    Memory.read (Memory.writeList m a vs) a' =
      if a ≤ a' ∧ a' < a + vs.length then vs[a' - a]? else Memory.read m a' := by
  induction vs generalizing m a with
  | nil => simp [Memory.writeList]
  | cons v vs ih =>
    rw [Memory.writeList, ih, read_write]
    simp only [List.length_cons]
    by_cases h : a' = a
    · subst h; simp
    · by_cases h2 : a + 1 ≤ a' ∧ a' < a + 1 + vs.length
      · rw [if_pos h2, if_pos (by omega), show a' - a = (a' - (a + 1)) + 1 by omega, List.getElem?_cons_succ]
      · rw [if_neg h2, if_neg h, if_neg (by omega)]

/-- A run of writes is a run of writes to its front and then to the rest. -/
theorem writeList_append (us vs : List Byte) (m : Memory) (a : Nat) :
    Memory.writeList m a (us ++ vs) = Memory.writeList (Memory.writeList m a us) (a + us.length) vs := by
  induction us generalizing m a with
  | nil => rfl
  | cons u us ih =>
    simp only [List.cons_append, Memory.writeList, ih, List.length_cons]
    rw [show a + 1 + us.length = a + (us.length + 1) by omega]

/-- The checked run of writes answers exactly when every offset is below `cap`, and then it is the run of writes. -/
theorem memWriteAll_eq (cap : Nat) (vs : List Byte) (m : Memory) (w : Nat) (h : w + vs.length ≤ cap) :
    memWriteAll cap m w vs = some (Memory.writeList m w vs) := by
  induction vs generalizing m w with
  | nil => rfl
  | cons v vs ih =>
    simp only [List.length_cons] at h
    simp only [memWriteAll, memWrite, if_pos (show w < cap by omega), Memory.writeList]
    exact ih _ _ (by omega)

/-- If the checked run of writes answers, the offsets were below `cap` and it is the run of writes. -/
theorem memWriteAll_some {cap : Nat} {vs : List Byte} {m m' : Memory} {w : Nat}
    (h : memWriteAll cap m w vs = some m') :
    m' = Memory.writeList m w vs ∧ (vs = [] ∨ w + vs.length ≤ cap) := by
  induction vs generalizing m w with
  | nil => simp only [memWriteAll, Option.some.injEq] at h; exact ⟨h.symm, .inl rfl⟩
  | cons v vs ih =>
    simp only [memWriteAll, memWrite] at h
    by_cases hw : w < cap
    · rw [if_pos hw] at h
      obtain ⟨h1, h2⟩ := ih h
      refine ⟨h1, .inr ?_⟩
      rcases h2 with rfl | h2
      · simp only [List.length_cons, List.length_nil]; omega
      · simp only [List.length_cons]; omega
    · rw [if_neg hw] at h; cases h

/-! ### The canonical form -/

theorem wf_cons {a : Nat} {v : Byte} {m : Memory} (h : Memory.wf ((a, v) :: m) = true) : Memory.wf m = true := by
  cases m with
  | nil => rfl
  | cons c m => obtain ⟨k, u⟩ := c; simp only [Memory.wf, Bool.and_eq_true] at h; exact h.2

/-- Writing above a cell keeps that cell below. -/
theorem wf_write_above {k : Nat} {u : Byte} {m : Memory} {a : Nat} {v : Byte} (hk : k < a)
    (h : Memory.wf ((k, u) :: m) = true) (hm : Memory.wf (Memory.write m a v) = true) :
    Memory.wf ((k, u) :: Memory.write m a v) = true := by
  cases m with
  | nil => simp [Memory.write, Memory.wf, hk]
  | cons c m =>
    obtain ⟨j, x⟩ := c
    simp only [Memory.wf, Bool.and_eq_true, decide_eq_true_eq] at h
    unfold Memory.write at hm ⊢
    split
    · rename_i hlt
      simp only [if_pos hlt] at hm
      simp [Memory.wf, hk, hlt, h.2]
    · rename_i hlt
      simp only [if_neg hlt] at hm
      split
      · rename_i he
        simp only [if_pos he] at hm
        simp only [Memory.wf, Bool.and_eq_true, decide_eq_true_eq]
        cases m with
        | nil => simp [Memory.wf, hk]
        | cons d m => simp only [Memory.wf, Bool.and_eq_true, decide_eq_true_eq] at hm ⊢; exact ⟨hk, hm⟩
      · rename_i he
        simp only [if_neg he] at hm
        generalize hq : Memory.write m a v = q at hm ⊢
        simp only [Memory.wf, Bool.and_eq_true, decide_eq_true_eq]
        exact ⟨h.1, hm⟩

/-- A write keeps the canonical form. -/
theorem wf_write (m : Memory) (a : Nat) (v : Byte) (h : Memory.wf m = true) :
    Memory.wf (Memory.write m a v) = true := by
  induction m with
  | nil => rfl
  | cons c m ih =>
    obtain ⟨k, u⟩ := c
    have ihm := ih (wf_cons h)
    by_cases hlt : a < k
    · simp [Memory.write, Memory.wf, hlt, h]
    · by_cases he : a = k
      · subst he
        simp only [Memory.write, if_neg hlt, if_true]
        cases m with
        | nil => rfl
        | cons d m => simpa [Memory.wf] using h
      · simp only [Memory.write, if_neg hlt, if_neg he]
        exact wf_write_above (by omega) h ihm

/-- A run of writes keeps the canonical form. -/
theorem wf_writeList (vs : List Byte) (m : Memory) (a : Nat) (h : Memory.wf m = true) :
    Memory.wf (Memory.writeList m a vs) = true := by
  induction vs generalizing m a with
  | nil => exact h
  | cons v vs ih => exact ih _ _ (wf_write m a v h)

/-- A checked run of writes keeps the canonical form. -/
theorem wf_memWriteAll {cap : Nat} {vs : List Byte} {m m' : Memory} {w : Nat}
    (h : memWriteAll cap m w vs = some m') (hm : Memory.wf m = true) : Memory.wf m' = true := by
  rw [(memWriteAll_some h).1]; exact wf_writeList vs m w hm

/-- A buffer the host hands over has the canonical form. -/
theorem wf_lendDst (cells : List Byte) (s : State) : Memory.wf (lendDst cells s).dst = true :=
  wf_writeList cells [] 0 rfl

/-- The reset memory has the canonical form. -/
theorem wf_reset_dst : Memory.wf State.reset.dst = true := rfl

/-- The first bytes after a run of writes from offset 0 on are the bytes written. -/
theorem firstBytes_writeList (vs : List Byte) (m : Memory) :
    Memory.firstBytes (Memory.writeList m 0 vs) vs.length = vs := by
  have h : ∀ n, n ≤ vs.length →
      (List.range n).filterMap (Memory.read (Memory.writeList m 0 vs)) = vs.take n := by
    intro n
    induction n with
    | zero => intro _; rfl
    | succ n ih =>
      intro hn
      rw [List.range_succ, List.filterMap_append, ih (by omega), List.filterMap_cons, List.filterMap_nil,
        read_writeList, if_pos (by omega), Nat.sub_zero, List.getElem?_eq_getElem (by omega)]
      exact (List.take_append_getElem (by omega))
  rw [Memory.firstBytes, h _ (Nat.le_refl _), List.take_length]

end Sys2Proof.Machine
end

