-- ==== Sys2Proof/Laws/Rx.lean ====
section
/-! SUPPORT. What a receive step can do, said once (41_rx_deframer.md R81 to R86); feeding a list of bytes; the loop of
`RX.UNPACK` (R92). -/

namespace Sys2Proof.Machine

/-! ### `rx_accept` -/

@[simp] theorem rxAccept_ev (x : RxCtx) (d : Byte) : (rxAccept x d).ev = .none := by
  unfold rxAccept; split <;> rfl
@[simp] theorem rxAccept_st (x : RxCtx) (d : Byte) : (rxAccept x d).ctx.st = .data := by
  unfold rxAccept; split <;> rfl
@[simp] theorem rxAccept_cnt (x : RxCtx) (d : Byte) : (rxAccept x d).ctx.cnt = x.cnt + 1 := by
  unfold rxAccept; split <;> rfl
theorem rxAccept_out (x : RxCtx) (d : Byte) :
    (rxAccept x d).out = if 2 ≤ x.cnt then [lbGet x x.cnt] else [] := by
  unfold rxAccept; split <;> rfl
/-- The CRC is advanced by exactly what is emitted. -/
theorem rxAccept_crc (x : RxCtx) (d : Byte) :
    (rxAccept x d).ctx.crc = (rxAccept x d).out.foldl crcUpdate x.crc := by
  unfold rxAccept; split <;> simp
theorem rxAccept_lbGet (x : RxCtx) (d : Byte) (k : Nat) :
    lbGet (rxAccept x d).ctx k = lbGet (lbSet x x.cnt d) k := by
  unfold rxAccept; split <;> rfl

/-! ### `rx_step` -/

/-- The data byte that a byte stands for: in `ESCAPED` it is unescaped (41_rx_deframer.md R86). -/
def rxDataByte (x : RxCtx) (b : Byte) : Byte := if x.st = .escaped then b ^^^ MASK else b

/-- A step that accepts is `rx_accept` of the data byte. -/
theorem rxStep_accept {x : RxCtx} {b : Byte} (h : rxWouldAccept x b = true) :
    rxStep x b = rxAccept x (rxDataByte x b) := by
  simp only [rxWouldAccept, Bool.and_eq_true, decide_eq_true_eq] at h
  obtain ⟨⟨h1, h2⟩, h3⟩ := h
  unfold rxStep rxDataByte
  split <;> simp_all

/-- Everything a receive step can do: it accepts a data byte; it moves to another state, or stays, without an event;
or it takes an event and leaves the reset context. -/
theorem rxStep_cases (x : RxCtx) (b : Byte) :
    (rxWouldAccept x b = true ∧ rxStep x b = rxAccept x (rxDataByte x b)) ∨
    (rxWouldAccept x b = false ∧ x.st = .idle ∧
      rxStep x b = { ctx := { x with st := if b = FLAG then .start else .idle }, out := [], ev := .none }) ∨
    (rxWouldAccept x b = false ∧ x.st = .start ∧ b = FLAG ∧ rxStep x b = { ctx := x, out := [], ev := .none }) ∨
    (rxWouldAccept x b = false ∧ (x.st = .start ∨ x.st = .data) ∧ b = ESC ∧
      rxStep x b = { ctx := { x with st := .escaped }, out := [], ev := .none }) ∨
    (rxWouldAccept x b = false ∧ x.st = .data ∧ b = FLAG ∧
      rxStep x b = takeEvent (if rxGood x then .frameOk else .errCrc)) ∨
    (rxWouldAccept x b = false ∧ x.st = .escaped ∧ (b = FLAG ∨ b = ESC) ∧ rxStep x b = takeEvent .errFrame) := by
  by_cases h : rxWouldAccept x b = true
  · exact .inl ⟨h, rxStep_accept h⟩
  · right
    have hf : rxWouldAccept x b = false := by simpa using h
    simp only [rxWouldAccept, Bool.and_eq_false_iff, decide_eq_false_iff_not, not_not] at hf
    obtain ⟨st, crc, cnt, lb0, lb1⟩ := x
    cases st
    · left
      refine ⟨by simpa using h, rfl, ?_⟩
      simp only [rxStep]; split <;> rfl
    · rcases hf with (hf | rfl) | rfl
      · cases hf
      · exact .inr (.inl ⟨by simpa using h, rfl, rfl, by simp [rxStep]⟩)
      · exact .inr (.inr (.inl ⟨by simpa using h, .inl rfl, rfl, by simp [rxStep]⟩))
    · rcases hf with (hf | rfl) | rfl
      · cases hf
      · refine .inr (.inr (.inr (.inl ⟨by simpa using h, rfl, rfl, ?_⟩)))
        simp only [rxStep, if_true]; split <;> rfl
      · exact .inr (.inr (.inl ⟨by simpa using h, .inr rfl, rfl, by simp [rxStep]⟩))
    · have hb : b = FLAG ∨ b = ESC := by
        rcases hf with (hf | rfl) | rfl
        · cases hf
        · exact .inl rfl
        · exact .inr rfl
      exact .inr (.inr (.inr (.inr ⟨by simpa using h, rfl, hb, by rcases hb with rfl | rfl <;> simp [rxStep]⟩)))

/-- A step emits at most one byte, and one exactly when `rx_would_emit` says so. -/
theorem rxStep_out (x : RxCtx) (b : Byte) :
    (rxStep x b).out = if rxWouldEmit x b then [lbGet x x.cnt] else [] := by
  rcases rxStep_cases x b with ⟨h, e⟩ | ⟨h, _, e⟩ | ⟨h, _, _, e⟩ | ⟨h, _, _, e⟩ | ⟨h, _, _, e⟩ | ⟨h, _, _, e⟩
  · rw [e, rxAccept_out]; simp [rxWouldEmit, h]
  all_goals rw [e]; simp [rxWouldEmit, h]

/-- An event and an emitted byte never come together, and after an event the context is the reset context. -/
theorem rxStep_event {x : RxCtx} {b : Byte} (h : (rxStep x b).ev ≠ .none) :
    rxStep x b = takeEvent (rxStep x b).ev ∧ rxWouldAccept x b = false ∧
      (((rxStep x b).ev = .frameOk ∨ (rxStep x b).ev = .errCrc) ∧ b = FLAG ∨ (rxStep x b).ev = .errFrame) := by
  rcases rxStep_cases x b with
    ⟨_, e⟩ | ⟨_, _, e⟩ | ⟨_, _, _, e⟩ | ⟨_, _, _, e⟩ | ⟨hw, _, hb, e⟩ | ⟨hw, _, _, e⟩
  · rw [e] at h; simp at h
  · rw [e] at h; simp at h
  · rw [e] at h; simp at h
  · rw [e] at h; simp at h
  · refine ⟨by rw [e]; rfl, hw, .inl ⟨?_, hb⟩⟩
    rw [e]; simp only [takeEvent_ev]; split <;> simp
  · exact ⟨by rw [e]; rfl, hw, .inr (by rw [e]; rfl)⟩

/-- The count grows by one when a byte is accepted, and by nothing else. -/
theorem rxStep_cnt_le (x : RxCtx) (b : Byte) : (rxStep x b).ctx.cnt ≤ x.cnt + 1 := by
  rcases rxStep_cases x b with ⟨_, e⟩ | ⟨_, _, e⟩ | ⟨_, _, _, e⟩ | ⟨_, _, _, e⟩ | ⟨_, _, _, e⟩ | ⟨_, _, _, e⟩
  · rw [e, rxAccept_cnt]
  all_goals rw [e]; simp

/-- Without an event the CRC is advanced by exactly what is emitted. -/
theorem rxStep_crc {x : RxCtx} {b : Byte} (h : (rxStep x b).ev = .none) :
    (rxStep x b).ctx.crc = (rxStep x b).out.foldl crcUpdate x.crc := by
  rcases rxStep_cases x b with ⟨_, e⟩ | ⟨_, _, e⟩ | ⟨_, _, _, e⟩ | ⟨_, _, _, e⟩ | ⟨_, _, _, e⟩ | ⟨_, _, _, e⟩
  · rw [e, rxAccept_crc]
  · rw [e]; rfl
  · rw [e]; rfl
  · rw [e]; rfl
  · rw [e] at h; simp only [takeEvent_ev] at h; split at h <;> cases h
  · rw [e] at h; cases h

/-- The checked step is the step where the count leaves room. -/
theorem rxStepChecked_some {cfg : Config} {x : RxCtx} {b : Byte} {r : RxResult}
    (h : rxStepChecked cfg x b = some r) :
    r = rxStep x b ∧ (rxWouldAccept x b = true → x.cnt + 1 < 2 ^ cfg.countW) := by
  unfold rxStepChecked countFull at h
  split at h
  · cases h
  · rename_i hn
    refine ⟨by simpa using h.symm, fun ha => ?_⟩
    simp only [ha, Bool.true_and, decide_eq_true_eq] at hn
    omega

/-- The checked step answers where the count leaves room. -/
theorem rxStepChecked_eq {cfg : Config} {x : RxCtx} {b : Byte} (h : x.cnt + 1 < 2 ^ cfg.countW) :
    rxStepChecked cfg x b = some (rxStep x b) := by
  unfold rxStepChecked countFull
  rw [if_neg]
  simp only [Bool.and_eq_true, decide_eq_true_eq, not_and]
  intro _; omega

/-! ### Feeding a list -/

@[simp] theorem rxFeed_nil (x : RxCtx) : rxFeed x [] = { ctx := x, out := [], evs := [] } := rfl

@[simp] theorem rxFeed_cons (x : RxCtx) (b : Byte) (bs : List Byte) :
    rxFeed x (b :: bs) =
      { ctx := (rxFeed (rxStep x b).ctx bs).ctx
        out := (rxStep x b).out ++ (rxFeed (rxStep x b).ctx bs).out
        evs := (rxStep x b).ev :: (rxFeed (rxStep x b).ctx bs).evs } := rfl

/-- Feeding two lists in turn is feeding their concatenation. -/
theorem rxFeed_append (x : RxCtx) (as bs : List Byte) :
    rxFeed x (as ++ bs) =
      { ctx := (rxFeed (rxFeed x as).ctx bs).ctx
        out := (rxFeed x as).out ++ (rxFeed (rxFeed x as).ctx bs).out
        evs := (rxFeed x as).evs ++ (rxFeed (rxFeed x as).ctx bs).evs } := by
  induction as generalizing x with
  | nil => rfl
  | cons a as ih => simp only [List.cons_append, rxFeed_cons, ih, List.append_assoc]

theorem rxFeed_evs_length (x : RxCtx) (bs : List Byte) : (rxFeed x bs).evs.length = bs.length := by
  induction bs generalizing x with
  | nil => rfl
  | cons b bs ih => simp [ih]

/-! ### The loop of `RX.UNPACK` -/

/-- A step without an event before a loop that ends one of the five ways. -/
theorem unpackEnding_cons {cfg : Config} {cap : Nat} {b : Byte} {rest : List Byte} {i w k : Nat} {x : RxCtx}
    {ret : Int} {consumed : Nat} (hev : (rxStep x b).ev = .none)
    (h : UnpackEnding cfg cap rest (i + 1) (w + (rxStep x b).out.length) k (rxFeed (rxStep x b).ctx (rest.take k))
      ret consumed) :
    UnpackEnding cfg cap (b :: rest) i w (k + 1) (rxFeed x ((b :: rest).take (k + 1))) ret consumed := by
  have hq : ∀ {ev : Event}, (rxFeed (rxStep x b).ctx (rest.take k)).endsWith ev →
      (rxFeed x ((b :: rest).take (k + 1))).endsWith ev := by
    rintro ev ⟨before, h1, h2⟩
    refine ⟨Event.none :: before, ?_, ?_⟩
    · simp [h1, hev]
    · intro e he; rcases List.mem_cons.mp he with rfl | he
      · rfl
      · exact h2 e he
  have hlen : w + (rxFeed x ((b :: rest).take (k + 1))).out.length =
      w + (rxStep x b).out.length + (rxFeed (rxStep x b).ctx (rest.take k)).out.length := by
    simp; omega
  have hquiet : (rxFeed (rxStep x b).ctx (rest.take k)).quiet → (rxFeed x ((b :: rest).take (k + 1))).quiet := by
    intro hq e he
    simp only [List.take_succ_cons, rxFeed_cons, List.mem_cons] at he
    rcases he with rfl | he
    · exact hev
    · exact hq e he
  cases h with
  | sourceExhausted hk q =>
    rw [← hlen, show i + 1 + k = i + (k + 1) by omega]
    exact .sourceExhausted (by simp [hk]) (hquiet q)
  | frameGood hk e =>
    rw [← hlen, show i + 1 + (k - 1) = i + (k + 1 - 1) by omega]
    refine .frameGood ⟨by omega, ?_⟩ (hq e)
    obtain ⟨hk, hb⟩ := hk
    rw [show k + 1 - 1 = (k - 1) + 1 by omega, List.getElem?_cons_succ]; exact hb
  | destinationExhausted c hc he hf q =>
    rw [← hlen, show i + 1 + k = i + (k + 1) by omega]
    exact .destinationExhausted c (by simpa using hc) (by simpa using he) (by rw [hlen]; exact hf) (hquiet q)
  | crcError hk e =>
    rw [show i + 1 + (k - 1) = i + (k + 1 - 1) by omega]
    refine .crcError ⟨by omega, ?_⟩ (hq e)
    obtain ⟨hk, hb⟩ := hk
    rw [show k + 1 - 1 = (k - 1) + 1 by omega, List.getElem?_cons_succ]; exact hb
  | frameError e =>
    rw [show i + 1 + k = i + (k + 1) by omega]
    exact .frameError (hq e)

/-- Everything the loop of `RX.UNPACK` can do when it answers: it stepped the first `k` bytes, wrote what they emitted
and ended one of the five ways of 41_rx_deframer.md R93. -/
theorem unpackLoop_next {cfg : Config} {cap : Nat} {src : List Byte} {i w : Nat} {x : RxCtx} {m : Memory}
    {e : MacroEnd RxCtx} (hw : w ≤ cap) (h : unpackLoop cfg cap src i w x m = .next e) :
    ∃ k, k ≤ src.length ∧ e.ctx = (rxFeed x (src.take k)).ctx ∧
      e.dst = Memory.writeList m w (rxFeed x (src.take k)).out ∧
      w + (rxFeed x (src.take k)).out.length ≤ cap ∧
      UnpackEnding cfg cap src i w k (rxFeed x (src.take k)) e.ret e.consumed := by
  induction src generalizing i w x m with
  | nil =>
    simp only [unpackLoop, Host.Outcome.next.injEq] at h
    subst h
    exact ⟨0, Nat.le_refl _, rfl, rfl, hw, .sourceExhausted rfl (by simp [Fed.quiet])⟩
  | cons b rest ih =>
    unfold unpackLoop at h
    split at h
    · rename_i hfull
      simp only [Bool.and_eq_true, beq_iff_eq] at hfull
      simp only [Host.Outcome.next.injEq] at h
      subst h
      exact ⟨0, Nat.zero_le _, rfl, rfl, hw,
        .destinationExhausted b rfl hfull.1 (by simp [hfull.2]) (by simp [Fed.quiet])⟩
    · rename_i hroom
      split at h
      · cases h
      · rename_i r hr
        obtain ⟨rfl, _⟩ := rxStepChecked_some hr
        have hlen : w + (rxStep x b).out.length ≤ cap := by
          rw [rxStep_out]
          split
          · rename_i he
            simp only [he, Bool.true_and, beq_iff_eq] at hroom
            simp only [List.length_cons, List.length_nil]; omega
          · simpa using hw
        rw [memWriteAll_eq _ _ _ _ hlen] at h
        dsimp only at h
        by_cases hev : (rxStep x b).ev = .none
        · rw [hev] at h
          dsimp only at h
          obtain ⟨k, hk, h1, h2, h3, h4⟩ := ih hlen h
          refine ⟨k + 1, by simpa using hk, by simpa using h1, ?_, ?_, unpackEnding_cons hev h4⟩
          · rw [h2, List.take_succ_cons, rxFeed_cons, writeList_append]
          · simp only [List.take_succ_cons, rxFeed_cons, List.length_append]; omega
        · obtain ⟨he, _, hflag⟩ := rxStep_event hev
          have hout : (rxStep x b).out = [] := by rw [he]; rfl
          refine ⟨1, by simp, ?_⟩
          simp only [List.take_succ_cons, List.take_zero, rxFeed_cons, rxFeed_nil, List.append_nil]
          have hends : ∀ ev, (rxStep x b).ev = ev →
              Fed.endsWith { ctx := (rxStep x b).ctx, out := (rxStep x b).out, evs := [(rxStep x b).ev] } ev :=
            fun ev hq => ⟨[], by simp [hq], by simp⟩
          cases hq : (rxStep x b).ev with
          | none => exact absurd hq hev
          | frameOk =>
            rw [hq] at h hflag
            simp only [Host.Outcome.next.injEq] at h
            subst h
            have hb : b = FLAG := by simpa using hflag
            exact ⟨rfl, rfl, hlen, .frameGood ⟨by omega, by simp [hb]⟩ (by simpa [hq] using hends _ hq)⟩
          | errCrc =>
            rw [hq] at h hflag
            simp only [Host.Outcome.next.injEq] at h
            subst h
            have hb : b = FLAG := by simpa using hflag
            exact ⟨rfl, rfl, hlen, .crcError ⟨by omega, by simp [hb]⟩ (by simpa [hq] using hends _ hq)⟩
          | errFrame =>
            rw [hq] at h
            simp only [Host.Outcome.next.injEq] at h
            subst h
            exact ⟨rfl, rfl, hlen, .frameError (by simpa [hq] using hends _ hq)⟩

/-- The loop of `RX.UNPACK` never faults: it writes inside the destination (20_memory.md R42). -/
theorem unpackLoop_not_fault {cfg : Config} {cap : Nat} {src : List Byte} {i w : Nat} {x : RxCtx} {m : Memory}
    {φ : Fault} (hw : w ≤ cap) : unpackLoop cfg cap src i w x m ≠ .fault φ := by
  induction src generalizing i w x m with
  | nil => simp [unpackLoop]
  | cons b rest ih =>
    intro h
    unfold unpackLoop at h
    split at h
    · cases h
    · rename_i hroom
      split at h
      · cases h
      · rename_i r hr
        obtain ⟨rfl, _⟩ := rxStepChecked_some hr
        have hlen : w + (rxStep x b).out.length ≤ cap := by
          rw [rxStep_out]
          split
          · rename_i he
            simp only [he, Bool.true_and, beq_iff_eq] at hroom
            simp only [List.length_cons, List.length_nil]; omega
          · simpa using hw
        rw [memWriteAll_eq _ _ _ _ hlen] at h
        dsimp only at h
        split at h
        · exact ih hlen h
        all_goals cases h

/-- Where the count leaves room for every source byte, `RX.UNPACK` meets no full count. -/
theorem unpackRoom_of_count {cfg : Config} {cap w : Nat} {x : RxCtx} {src : List Byte}
    (h : x.cnt + src.length < 2 ^ cfg.countW) : UnpackRoom cfg cap w x src := by
  have hfeed : ∀ (l : List Byte) (y : RxCtx), (rxFeed y l).ctx.cnt ≤ y.cnt + l.length := by
    intro l
    induction l with
    | nil => intro y; simp
    | cons b bs ih =>
      intro y
      have h1 := ih (rxStep y b).ctx
      have h2 := rxStep_cnt_le y b
      simp only [rxFeed_cons, List.length_cons]; omega
  intro k b hk _ _ _ _
  have h1 := hfeed (src.take k) x
  have h2 : k < src.length := (List.getElem?_eq_some_iff.mp hk).1
  rw [List.length_take, Nat.min_eq_left (by omega)] at h1
  omega

/-- After a step without an event and with room for what it emits, the rest of the source still meets no full
count. -/
theorem unpackRoom_tail {cfg : Config} {cap w : Nat} {x : RxCtx} {b : Byte} {rest : List Byte}
    (h : UnpackRoom cfg cap w x (b :: rest)) (hev : (rxStep x b).ev = .none) :
    UnpackRoom cfg cap (w + (rxStep x b).out.length) (rxStep x b).ctx rest := by
  intro k c hk hq hlen hstop hacc
  have := h (k + 1) c (by simpa using hk)
  simp only [List.take_succ_cons, rxFeed_cons, List.length_append] at this
  refine this ?_ (by omega) ?_ hacc
  · intro e he
    rcases List.mem_cons.mp he with rfl | he
    · exact hev
    · exact hq e he
  · rintro ⟨he, hf⟩; exact hstop ⟨he, by omega⟩

/-- The loop of `RX.UNPACK` answers where it meets no full count. -/
theorem unpackLoop_answers {cfg : Config} {cap : Nat} {src : List Byte} {i w : Nat} {x : RxCtx} {m : Memory}
    (hw : w ≤ cap) (hc : UnpackRoom cfg cap w x src) :
    ∃ e, unpackLoop cfg cap src i w x m = .next e := by
  induction src generalizing i w x m with
  | nil => exact ⟨_, rfl⟩
  | cons b rest ih =>
    unfold unpackLoop
    split
    · exact ⟨_, rfl⟩
    · rename_i hroom
      have hstep : rxStepChecked cfg x b = some (rxStep x b) := by
        unfold rxStepChecked countFull
        rw [if_neg]
        simp only [Bool.and_eq_true, decide_eq_true_eq, not_and]
        intro hacc
        have := hc 0 b rfl (by simp [Fed.quiet]) (by simpa using hw)
          (by rintro ⟨h1, h2⟩; simp at h1 h2; simp [h1, h2] at hroom) (by simpa using hacc)
        simp only [List.take_zero, rxFeed_nil] at this
        omega
      rw [hstep]
      have hlen : w + (rxStep x b).out.length ≤ cap := by
        rw [rxStep_out]
        split
        · rename_i he
          simp only [he, Bool.true_and, beq_iff_eq] at hroom
          simp only [List.length_cons, List.length_nil]; omega
        · simpa using hw
      dsimp only
      rw [memWriteAll_eq _ _ _ _ hlen]
      dsimp only
      split
      · rename_i hev; exact ih hlen (unpackRoom_tail hc hev)
      all_goals exact ⟨_, rfl⟩

end Sys2Proof.Machine
end

