-- ==== Sys2Proof/Laws/Tx.lean ====
section
/-! SUPPORT. What the escape function and the transmit operations' parts give (42_tx_framer.md R106 to R113), and the
loop of `TX.PACK` (R111). -/

namespace Sys2Proof.Machine

/-! ### `tx_esc` -/

theorem txEsc_plain {b : Byte} (h1 : b ≠ FLAG) (h2 : b ≠ ESC) : txEsc b = [b] := by simp [txEsc, h1, h2]

/-- A unit is one byte outside the reserved values, or `ESC` and such a byte. -/
theorem txEsc_cases (b : Byte) :
    (b ≠ FLAG ∧ b ≠ ESC ∧ txEsc b = [b]) ∨
    ((b = FLAG ∨ b = ESC) ∧ txEsc b = [ESC, b ^^^ MASK] ∧ b ^^^ MASK ≠ FLAG ∧ b ^^^ MASK ≠ ESC) := by
  by_cases h1 : b = FLAG
  · subst h1; exact .inr (by decide)
  · by_cases h2 : b = ESC
    · subst h2; exact .inr (by decide)
    · exact .inl ⟨h1, h2, txEsc_plain h1 h2⟩

theorem txEsc_length (b : Byte) : (txEsc b).length = if b = FLAG ∨ b = ESC then 2 else 1 := by
  unfold txEsc; split <;> rfl

theorem txEsc_length_bounds (b : Byte) : 1 ≤ (txEsc b).length ∧ (txEsc b).length ≤ 2 := by
  rw [txEsc_length]; split <;> omega

/-! ### `TX.OPEN` and `TX.FINAL` -/

theorem txOpenOut_length (x : TxCtx) : (txOpenOut x).length = if x.st = .idle then 1 else 0 := by
  unfold txOpenOut; split <;> rfl

/-- `TX.FINAL` puts out exactly the bytes that `TX.FINALIZE` makes room for. -/
theorem txFinalOut_length (x : TxCtx) : (txFinalOut x).length = finalizeNeed x := by
  simp only [txFinalOut, crcWire, finalizeNeed, List.length_append, txOpenOut_length, List.length_cons,
    List.length_nil]
  omega

/-! ### The loop of `TX.PACK` -/

/-- The context after a list of raw bytes is folded in. -/
theorem txFold_foldl (x : TxCtx) (p : List Byte) :
    p.foldl txFold x = { x with crc := p.foldl crcUpdate x.crc, cnt := x.cnt + p.length } := by
  induction p generalizing x with
  | nil => rfl
  | cons b p ih =>
    simp only [List.foldl_cons, ih, txFold_crc, txFold_cnt, List.length_cons]
    simp only [txFold, TxCtx.mk.injEq, true_and]
    omega

/-- Everything the loop of `TX.PACK` can do when it answers: it packed the first `k` bytes, wrote their units whole,
and stopped at the end of the source or before a unit that does not fit (42_tx_framer.md R111, R112). -/
theorem packLoop_next {cfg : Config} {cap : Nat} {src : List Byte} {i w : Nat} {x : TxCtx} {m : Memory}
    {e : MacroEnd TxCtx} (hw : w ≤ cap) (h : packLoop cfg cap src i w x m = .next e) :
    ∃ k, k ≤ src.length ∧ e.ctx = (src.take k).foldl txFold x ∧
      e.dst = Memory.writeList m w ((src.take k).flatMap txEsc) ∧
      w + ((src.take k).flatMap txEsc).length ≤ cap ∧
      e.ret = ((w + ((src.take k).flatMap txEsc).length : Nat) : Int) ∧ e.consumed = i + k ∧
      (k = src.length ∨
        ∃ b, src[k]? = some b ∧ cap < w + ((src.take k).flatMap txEsc).length + (txEsc b).length) := by
  induction src generalizing i w x m with
  | nil =>
    simp only [packLoop, Host.Outcome.next.injEq] at h
    subst h
    exact ⟨0, Nat.le_refl _, rfl, rfl, hw, rfl, rfl, .inl rfl⟩
  | cons b rest ih =>
    unfold packLoop at h
    split at h
    · cases h
    · split at h
      · rename_i hfit
        simp only [Host.Outcome.next.injEq] at h
        subst h
        exact ⟨0, Nat.zero_le _, rfl, rfl, hw, rfl, rfl, .inr ⟨b, rfl, by simpa using hfit⟩⟩
      · rename_i hfit
        rw [memWriteAll_eq _ _ _ _ (by omega)] at h
        dsimp only at h
        obtain ⟨k, hk, h1, h2, h3, h4, h5, h6⟩ := ih (by omega) h
        refine ⟨k + 1, by simpa using hk, by simpa using h1, ?_, ?_, ?_, by omega, ?_⟩
        · rw [h2, List.take_succ_cons, List.flatMap_cons, writeList_append]
        · simp only [List.take_succ_cons, List.flatMap_cons, List.length_append]; omega
        · rw [h4]; simp only [List.take_succ_cons, List.flatMap_cons, List.length_append]; congr 1; omega
        · rcases h6 with h6 | ⟨c, hc, h6⟩
          · exact .inl (by simpa using h6)
          · refine .inr ⟨c, by simpa using hc, ?_⟩
            simp only [List.take_succ_cons, List.flatMap_cons, List.length_append]; omega

/-- The loop of `TX.PACK` never faults: it writes inside the destination (20_memory.md R42). -/
theorem packLoop_not_fault {cfg : Config} {cap : Nat} {src : List Byte} {i w : Nat} {x : TxCtx} {m : Memory}
    {φ : Fault} : packLoop cfg cap src i w x m ≠ .fault φ := by
  induction src generalizing i w x m with
  | nil => simp [packLoop]
  | cons b rest ih =>
    intro h
    unfold packLoop at h
    split at h
    · cases h
    · split at h
      · cases h
      · rw [memWriteAll_eq _ _ _ _ (by omega)] at h
        exact ih h

/-- Where the count leaves room for every source byte, `TX.PACK` meets no full count. -/
theorem packRoom_of_count {cfg : Config} {cap w : Nat} {x : TxCtx} {src : List Byte}
    (h : x.cnt + src.length < 2 ^ cfg.countW) : PackRoom cfg cap w x src := by
  intro k hk _; omega

/-- After a unit that fits, the rest of the source still meets no full count. -/
theorem packRoom_tail {cfg : Config} {cap w : Nat} {x : TxCtx} {b : Byte} {rest : List Byte}
    (h : PackRoom cfg cap w x (b :: rest)) : PackRoom cfg cap (w + (txEsc b).length) (txFold x b) rest := by
  intro k hk hlen
  have := h (k + 1) (by simpa using hk) (by
    simp only [List.take_succ_cons, List.flatMap_cons, List.length_append]; omega)
  simp only [txFold_cnt]; omega

/-- The loop of `TX.PACK` answers where it meets no full count. -/
theorem packLoop_answers {cfg : Config} {cap : Nat} {src : List Byte} {i w : Nat} {x : TxCtx} {m : Memory}
    (hw : w ≤ cap) (hc : PackRoom cfg cap w x src) : ∃ e, packLoop cfg cap src i w x m = .next e := by
  induction src generalizing i w x m with
  | nil => exact ⟨_, rfl⟩
  | cons b rest ih =>
    have h0 := hc 0 (by simp) (by simpa using hw)
    unfold packLoop
    rw [if_neg (by simp only [countFull, decide_eq_true_eq]; omega)]
    split
    · exact ⟨_, rfl⟩
    · rw [memWriteAll_eq _ _ _ _ (by omega)]
      exact ih (by omega) (packRoom_tail hc)

end Sys2Proof.Machine
end

