-- ==== Sys2Proof/Laws/Exec.lean ====
section
/-! SUPPORT. What each meaning that has a choice can do, said once: when it answers a next state, which one; and what a
step of the machine can do. -/

namespace Sys2Proof.Machine

/-- `RX.BYTE` answers the receive step, where the count leaves room (41_rx_deframer.md R89, R96). -/
theorem execRxByte_next {b : Byte} {s t : State} (h : execRxByte b s = .next t) :
    t = { s with rx := (rxStep s.rx b).ctx }.respond
      (.prim (returnValue s.cfg (rxStep s.rx b).ev (rxStep s.rx b).out.length) (rxStep s.rx b).ev
        (rxStep s.rx b).out) ∧
    (rxWouldAccept s.rx b = true → s.rx.cnt + 1 < 2 ^ s.cfg.countW) := by
  unfold execRxByte at h
  split at h
  · cases h
  · rename_i r hr
    obtain ⟨rfl, hc⟩ := rxStepChecked_some hr
    simp only [Host.Outcome.next.injEq] at h
    exact ⟨h.symm, hc⟩

/-- `TX.BYTE` folds the raw byte in, where the count leaves room (42_tx_framer.md R109, R118). -/
theorem execTxByte_next {b : Byte} {s t : State} (h : execTxByte b s = .next t) :
    t = { s with tx := txFold (txOpened s.tx) b }.respond (txResponse (txOpenOut s.tx ++ txEsc b)) ∧
    s.tx.cnt + 1 < 2 ^ s.cfg.countW := by
  unfold execTxByte countFull at h
  split at h
  · cases h
  · rename_i hc
    simp only [decide_eq_true_eq] at hc
    simp only [Host.Outcome.next.injEq] at h
    exact ⟨h.symm, by omega⟩

/-- `RX.UNPACK` answers one of the five ways (41_rx_deframer.md R93). -/
theorem execRxUnpack_next {cap : Nat} {src : List Byte} {s t : State} (h : execRxUnpack cap src s = .next t) :
    capOk s.cfg cap = true ∧ srcOk s.cfg src = true ∧
    ∃ k ret consumed, k ≤ src.length ∧
      t = { s with rx := (rxFeed s.rx (src.take k)).ctx,
                   dst := Memory.writeList s.dst 0 (rxFeed s.rx (src.take k)).out }.respond
            (.counted ret consumed) ∧
      (rxFeed s.rx (src.take k)).out.length ≤ cap ∧
      UnpackEnding s.cfg cap src 0 0 k (rxFeed s.rx (src.take k)) ret consumed := by
  unfold execRxUnpack operandsOk at h
  split at h
  · rename_i hok
    simp only [Bool.and_eq_true] at hok
    split at h
    · rename_i e he
      obtain ⟨k, hk, h1, h2, h3, h4⟩ := unpackLoop_next (Nat.zero_le _) he
      simp only [Host.Outcome.next.injEq] at h
      exact ⟨hok.1, hok.2, k, e.ret, e.consumed, hk, by rw [← h, h1, h2], by simpa using h3, h4⟩
    · cases h
    · cases h
  · cases h

/-- `TX.PACK` answers: the flag was due and had no room, or the first `k` bytes are packed (42_tx_framer.md R111,
R112). -/
theorem execTxPack_next {cap : Nat} {src : List Byte} {s t : State} (h : execTxPack cap src s = .next t) :
    capOk s.cfg cap = true ∧ srcOk s.cfg src = true ∧
    ((cap < (txOpenOut s.tx).length ∧ t = s.respond (.counted 0 0)) ∨
      ∃ k, k ≤ src.length ∧
        t = { s with tx := (src.take k).foldl txFold (txOpened s.tx),
                     dst := Memory.writeList s.dst 0 (txOpenOut s.tx ++ (src.take k).flatMap txEsc) }.respond
              (.counted (txOpenOut s.tx ++ (src.take k).flatMap txEsc).length k) ∧
        (txOpenOut s.tx ++ (src.take k).flatMap txEsc).length ≤ cap ∧
        (k = src.length ∨
          ∃ b, src[k]? = some b ∧
            cap < (txOpenOut s.tx ++ (src.take k).flatMap txEsc).length + (txEsc b).length)) := by
  unfold execTxPack operandsOk at h
  split at h
  · rename_i hok
    simp only [Bool.and_eq_true] at hok
    refine ⟨hok.1, hok.2, ?_⟩
    dsimp only at h
    split at h
    · rename_i hcap
      simp only [Host.Outcome.next.injEq] at h
      exact .inl ⟨hcap, h.symm⟩
    · rename_i hcap
      rw [memWriteAll_eq _ _ _ _ (by omega)] at h
      dsimp only at h
      split at h
      · rename_i e he
        obtain ⟨k, hk, h1, h2, h3, h4, h5, h6⟩ := packLoop_next (by omega) he
        simp only [Host.Outcome.next.injEq] at h
        refine .inr ⟨k, hk, ?_, by simpa using h3, ?_⟩
        · rw [← h, h1, h2, h4, h5, writeList_append, List.length_append]; simp
        · rcases h6 with h6 | ⟨b, hb, h6⟩
          · exact .inl h6
          · exact .inr ⟨b, hb, by rw [List.length_append]; exact h6⟩
      · cases h
      · cases h
  · cases h

/-- `TX.FINALIZE` answers: too little space, or the output of `TX.FINAL` is in the destination (42_tx_framer.md
R113). -/
theorem execTxFinalize_next {cap : Nat} {s t : State} (h : execTxFinalize cap s = .next t) :
    capOk s.cfg cap = true ∧
    ((cap < finalizeNeed s.tx ∧ t = s.respond (.final s.cfg.errUnspec)) ∨
     (finalizeNeed s.tx ≤ cap ∧
      t = { s with tx := TxCtx.reset, dst := Memory.writeList s.dst 0 (txFinalOut s.tx) }.respond
            (.final (finalizeNeed s.tx)))) := by
  unfold execTxFinalize operandsOk at h
  split at h
  · rename_i hok
    simp only [Bool.and_eq_true] at hok
    refine ⟨hok.1, ?_⟩
    split at h
    · rename_i hcap
      simp only [Host.Outcome.next.injEq] at h
      exact .inl ⟨hcap, h.symm⟩
    · rename_i hcap
      rw [memWriteAll_eq _ _ _ _ (by rw [txFinalOut_length]; omega)] at h
      simp only [Host.Outcome.next.injEq] at h
      exact .inr ⟨by omega, h.symm⟩
  · cases h

/-- Everything a step can do when it answers: nothing is issued; a buffer is handed over; or an issued operation is
decoded and executed. -/
theorem step_next {s t : State} (h : step s = .next t) :
    (s.issued = [] ∧ t = s) ∨
    (∃ cells rest, s.issued = .lend cells :: rest ∧ t = lendDst cells { s with issued := rest }) ∨
    (∃ r rest i, s.issued = .issue r :: rest ∧ decodeRequest r = .instr i ∧
      exec i { s with issued := rest } = .next t) := by
  unfold step at h
  split at h
  · rename_i hi
    simp only [Host.Outcome.next.injEq] at h
    exact .inl ⟨hi, h.symm⟩
  · rename_i cells rest hi
    simp only [Host.Outcome.next.injEq] at h
    exact .inr (.inl ⟨cells, rest, hi, h.symm⟩)
  · rename_i r rest hi
    split at h
    · cases h
    · rename_i i hd
      exact .inr (.inr ⟨r, rest, i, hi, hd, h⟩)

end Sys2Proof.Machine
end

