-- ==== Sys2Proof/Laws/PerInstr.lean ====
section
/-! SUPPORT. A family of statements about every instruction as syntax: its command word, where it has one, is selected
by the row of the opcode map that bears its mnemonic (30_encoding.md R54), and by no other row. -/

namespace Sys2Proof.Laws.RowMatch

open Sys2Proof

/-- The rows of the opcode map that select the instruction's command word are the ones with its mnemonic. -/
def Statement (i : Instr) : Prop :=
  ∀ w, encode i = some w →
    (opcodeRows.filter fun r => r.selects w).map (fun r => r.mnemonic) = [i.mnemonic]

theorem crcInit : Statement .crcInit := by
  intro w h; cases h; decide

theorem crcUpdate : ∀ b, Statement (.crcUpdate b) := by
  intro b w h; cases h; revert b; decide

theorem txInit : Statement .txInit := by
  intro w h; cases h; decide

theorem txByte : ∀ b, Statement (.txByte b) := by
  intro b w h; cases h; revert b; decide

theorem txOpen : Statement .txOpen := by
  intro w h; cases h; decide

theorem txFinal : Statement .txFinal := by
  intro w h; cases h; decide

theorem rxInit : Statement .rxInit := by
  intro w h; cases h; decide

theorem rxByte : ∀ b, Statement (.rxByte b) := by
  intro b w h; cases h; revert b; decide

theorem rxDone : Statement .rxDone := by
  intro w h; cases h; decide

theorem rxUnpack : ∀ cap src, Statement (.rxUnpack cap src) := by
  intro cap src w h; cases h

theorem txPack : ∀ cap src, Statement (.txPack cap src) := by
  intro cap src w h; cases h

theorem txFinalize : ∀ cap, Statement (.txFinalize cap) := by
  intro cap w h; cases h

end Sys2Proof.Laws.RowMatch
end

