-- ==== Sys2Proof/Tests/Slice0.lean ====
section
/-! SUPPORT. Tests of the model. Expected values come from the encoding table of 30_encoding.md R54 and from the vectors
of spec/95_test_vectors.md (V1 to V29), named in each test's comment; and, for each obligation with hypotheses, a
concrete state and operands that meet them (`test_witness_…`). -/

namespace Sys2Proof.Tests

open Sys2Proof Sys2Proof.Machine

/-! ### States the tests start from -/

/-- The reset state with other receive registers. -/
def rxAt (st : CtxState) (crc : Word) (cnt : Nat) (lb0 lb1 : Byte) : State :=
  { State.reset with rx := { st := st, crc := crc, cnt := cnt, lb0 := lb0, lb1 := lb1 } }

/-- The reset state with other transmit registers. -/
def txAt (st : CtxState) (crc : Word) (cnt : Nat) : State :=
  { State.reset with tx := { st := st, crc := crc, cnt := cnt } }

/-- The default parameters with a narrow return value, so that a short list is too long. -/
def narrow : Config := { Config.default with retW := 2 }

/-- The state in the middle of a frame in both directions: 41 received and its CRC buffered, 41 packed. -/
def midFrame : State :=
  { State.reset with
    rx := { st := .data, crc := 0xB915, cnt := 3, lb0 := 0xB9, lb1 := 0x15 }
    tx := { st := .data, crc := 0xB915, cnt := 1 }
    dst := [(0, 0x41)] }

/-- The next state of an outcome, when there is one. -/
def nextOf : Host.Outcome State Fault Refusal → Option State
  | .next t => some t
  | .fault _ => none
  | .refused _ => none

theorem eq_next {o : Host.Outcome State Fault Refusal} {t : State} (h : nextOf o = some t) : o = .next t := by
  cases o <;> simp_all [nextOf]

/-- The response of an outcome, when it is a next state. -/
def rspOf : Host.Outcome State Fault Refusal → Option Response
  | .next t => t.rsp
  | .fault _ => none
  | .refused _ => none

/-- The receive context of an outcome, when it is a next state. -/
def rxOf : Host.Outcome State Fault Refusal → Option RxCtx
  | .next t => some t.rx
  | .fault _ => none
  | .refused _ => none

/-- The transmit context of an outcome, when it is a next state. -/
def txOf : Host.Outcome State Fault Refusal → Option TxCtx
  | .next t => some t.tx
  | .fault _ => none
  | .refused _ => none

/-- The destination cells of an outcome, when it is a next state. -/
def dstOf : Host.Outcome State Fault Refusal → Option Memory
  | .next t => some t.dst
  | .fault _ => none
  | .refused _ => none

/-- The capacity of an operation one above the largest is ill formed (30_encoding.md R63). -/
theorem test_wellFormed_refuses_unpack_cap :
    Instr.wellFormed Config.default (.rxUnpack 2147483648 []) = false := by decide

theorem test_wellFormed_takes_largest_cap :
    Instr.wellFormed Config.default (.rxUnpack 2147483647 []) = true := by decide

theorem test_wellFormed_refuses_unpack_source :
    Instr.wellFormed narrow (.rxUnpack 1 [0x7E, 0x41]) = false := by decide

theorem test_wellFormed_refuses_pack_cap :
    Instr.wellFormed Config.default (.txPack 2147483648 []) = false := by decide

theorem test_wellFormed_refuses_pack_source :
    Instr.wellFormed narrow (.txPack 1 [0x41, 0x42]) = false := by decide

theorem test_wellFormed_refuses_finalize_cap :
    Instr.wellFormed Config.default (.txFinalize 2147483648) = false := by decide

/-- A return value too narrow for a 16-bit datum, and error codes that are not negative or not distinct. -/
theorem test_config_refuses_narrow : narrow.wf = false := by decide

theorem test_config_refuses_codes :
    ({ Config.default with errUnspec := 0 } : Config).wf = false ∧
    ({ Config.default with errCrc := 1 } : Config).wf = false ∧
    ({ Config.default with errFrame := -2 } : Config).wf = false := by decide

theorem test_config_default : Config.default.wf = true := by decide

/-! ### Decoding: words written out from 30_encoding.md R54 -/

theorem test_decode_crcInit : decode 0b0000000000000000#16 = .instr .crcInit := by decide
theorem test_decode_crcUpdate : decode 0b0000000110110001#16 = .instr (.crcUpdate 0xB1) := by decide
theorem test_decode_txInit : decode 0b0001000000000000#16 = .instr .txInit := by decide
theorem test_decode_txByte : decode 0b0001000101111101#16 = .instr (.txByte 0x7D) := by decide
theorem test_decode_txOpen : decode 0b0001001000000000#16 = .instr .txOpen := by decide
theorem test_decode_txFinal : decode 0b0001001100000000#16 = .instr .txFinal := by decide
theorem test_decode_rxInit : decode 0b0010000000000000#16 = .instr .rxInit := by decide
theorem test_decode_rxByte : decode 0b0010000111100001#16 = .instr (.rxByte 0xE1) := by decide
theorem test_decode_rxDone : decode 0b0010001000000000#16 = .instr .rxDone := by decide

/-- A macro-operation has no command word: its call is the operation (30_encoding.md R62). -/
theorem test_decode_rxUnpack : decodeRequest (.unpack 4 [0x7E, 0x41]) = .instr (.rxUnpack 4 [0x7E, 0x41]) := by decide
theorem test_decode_txPack : decodeRequest (.pack 8 [0x41]) = .instr (.txPack 8 [0x41]) := by decide
theorem test_decode_txFinalize : decodeRequest (.finalize 5) = .instr (.txFinalize 5) := by decide

/-- Illegal words of each kind, at the edges of the ranges of 30_encoding.md R59. -/
theorem test_decode_illegal_channel :
    decode 0x3000 = .illegal .channel ∧ decode 0xF000 = .illegal .channel := by decide
theorem test_decode_illegal_function :
    decode 0x0200 = .illegal .function ∧ decode 0x0F00 = .illegal .function ∧ decode 0x1400 = .illegal .function ∧
    decode 0x1F00 = .illegal .function ∧ decode 0x2300 = .illegal .function ∧ decode 0x2F00 = .illegal .function := by
  decide
theorem test_decode_illegal_operand :
    decode 0x0001 = .illegal .operand ∧ decode 0x10FF = .illegal .operand ∧ decode 0x1201 = .illegal .operand ∧
    decode 0x1380 = .illegal .operand ∧ decode 0x2001 = .illegal .operand ∧ decode 0x2201 = .illegal .operand := by
  decide

/-- The host's two questions on one word (the table's own bit numbers). -/
theorem test_table_word : decodeTableWord 16 0x217E = some (.rxByte 0x7E) := by decide
theorem test_fetch_word :
    rxOf (step (State.reset.withFetchWord 16 0x217E)) = some { RxCtx.reset with st := .start } := by decide

/-! ### The CRC engine -/

/-- V2. -/
theorem test_crc_update :
    crcUpdate 0x1234 0x56 = 0x3C40 ∧ crcUpdate 0x8000 0x00 = 0x9188 ∧ crcUpdate 0x0001 0x00 = 0x0100 := by decide

/-- V5. -/
theorem test_table_form : tableEntry 0x7D = 0xAF3A ∧ crcUpdateByTable 0xFFFF 0x31 = 0xC782 := by decide

/-- V3, the check string, its last value. -/
theorem test_crc_check : crcUpdate 0xA12B 0x39 = 0x29B1 := by decide

/-- 40_crc.md R74, its example. -/
theorem test_crcInit :
    nextOf (exec .crcInit { State.reset with crc := { acc := 0x29B1 } }) =
      some { State.reset with rsp := some (.prim 65535 .none []) } := by decide

/-- 40_crc.md R75, its example. -/
theorem test_crcUpdate :
    nextOf (exec (.crcUpdate 0x31) State.reset) =
      some { State.reset with crc := { acc := 0xC782 }, rsp := some (.prim 51074 .none []) } := by decide

/-! ### The framer -/

/-- 42_tx_framer.md R107, its example. -/
theorem test_txInit :
    nextOf (exec .txInit (txAt .data 0xB915 1)) = some { State.reset with rsp := some (.prim 0 .none []) } := by decide

/-- V10, steps 1 and 2. -/
theorem test_txOpen :
    nextOf (exec .txOpen State.reset) = some { txAt .data 0xFFFF 0 with rsp := some (.prim 1 .none [0x7E]) } := by decide
theorem test_txOpen_again :
    nextOf (exec .txOpen (txAt .data 0xFFFF 0)) = some { txAt .data 0xFFFF 0 with rsp := some (.prim 0 .none []) } := by decide

/-- V10, step 4; 42_tx_framer.md R109, a reserved byte as the first of a frame. -/
theorem test_txByte :
    nextOf (exec (.txByte 0x7E) (txAt .data 0xB915 1)) =
      some { txAt .data 0xBCAB 2 with rsp := some (.prim 2 .none [0x7D, 0x5E]) } := by decide
theorem test_txByte_first :
    nextOf (exec (.txByte 0x7E) State.reset) =
      some { txAt .data 0x7EA9 1 with rsp := some (.prim 3 .none [0x7E, 0x7D, 0x5E]) } := by decide

/-- 42_tx_framer.md R110, its example; V9, both CRC bytes reserved. -/
theorem test_txFinal :
    nextOf (exec .txFinal (txAt .data 0xB915 1)) =
      some { State.reset with rsp := some (.prim 3 .none [0x15, 0xB9, 0x7E]) } := by decide
theorem test_txFinal_escaped :
    rspOf (exec .txFinal (txAt .data 0x7D7E 3)) = some (.prim 5 .none [0x7D, 0x5E, 0x7D, 0x5D, 0x7E]) := by decide

/-- V11, its fourth call, which keeps the cell behind what it writes; and the call whose pair does not fit. -/
theorem test_txPack :
    nextOf (exec (.txPack 3 [0x7E, 0x7D, 0x42]) { txAt .data 0xB915 1 with dst := [(0, 0x11), (2, 0x33)] }) =
      some { txAt .data 0xBCAB 2 with
             dst := [(0, 0x7D), (1, 0x5E), (2, 0x33)], rsp := some (.counted 2 1) } := by decide
theorem test_txPack_unit_left_whole :
    nextOf (exec (.txPack 1 [0x7D, 0x42]) (txAt .data 0xBCAB 2)) =
      some { txAt .data 0xBCAB 2 with rsp := some (.counted 0 0) } := by decide

/-- V11, V12: too little space, then enough. -/
theorem test_txFinalize_short :
    nextOf (exec (.txFinalize 2) (txAt .data 0x4962 4)) =
      some { txAt .data 0x4962 4 with rsp := some (.final (-1)) } := by decide
theorem test_txFinalize :
    nextOf (exec (.txFinalize 3) (txAt .data 0x4962 4)) =
      some { State.reset with dst := [(0, 0x62), (1, 0x49), (2, 0x7E)], rsp := some (.final 3) } := by decide

/-- V9. -/
theorem test_frame : frame [0x4A] = [0x7E, 0x4A, 0x7D, 0x5E, 0x08, 0x7E] := by decide

/-! ### The deframer -/

/-- 41_rx_deframer.md R88, its example. -/
theorem test_rxInit :
    nextOf (exec .rxInit (rxAt .escaped 0x1234 5 0xAA 0xBB)) =
      some { State.reset with rsp := some (.prim 0 .none []) } := by decide

/-- V13, step 4. -/
theorem test_rxByte_lag :
    nextOf (exec (.rxByte 0xB9) (rxAt .data 0xFFFF 2 0x41 0x15)) =
      some { rxAt .data 0xB915 3 0xB9 0x15 with rsp := some (.prim 1 .none [0x41]) } := by decide

/-- V18, step 5: the last bit of the CRC flipped. -/
theorem test_rxByte_crc_error :
    nextOf (exec (.rxByte 0x7E) (rxAt .data 0xB915 3 0xB8 0x15)) =
      some { State.reset with rsp := some (.prim (-2) .errCrc []) } := by decide

/-- V26. -/
theorem test_rxDone_at_reset : rspOf (exec .rxDone State.reset) = some (.prim 1 .none []) := by decide
theorem test_rxDone_in_start :
    rspOf (exec .rxDone (rxAt .start 0xFFFF 0 0x00 0x00)) = some (.prim 0 .none []) := by decide

/-- V25: the destination is full before a byte that must emit. -/
theorem test_rxUnpack_full :
    nextOf (exec (.rxUnpack 1 [0x43, 0x08, 0xF5, 0x7E]) (rxAt .data 0xFFFF 2 0x41 0x42)) =
      some { rxAt .data 0xB915 3 0x43 0x42 with dst := [(0, 0x41)], rsp := some (.counted 1 1) } := by decide

/-- V28: the bytes of a bad frame stay written, the closing flag is not counted. -/
theorem test_rxUnpack_bad_frame :
    nextOf (exec (.rxUnpack 8 [0x7E, 0x41, 0x15, 0xB8, 0x7E, 0x7E]) State.reset) =
      some { State.reset with dst := [(0, 0x41)], rsp := some (.counted (-2) 4) } := by decide

/-- V27, its last two steps: the frame with one bit flipped is taken as good. -/
theorem test_single_bit_flip_passes :
    (rxFeed { st := .data, crc := 0x2D13, cnt := 5, lb0 := 0x97, lb1 := 0x5D } [0x6D, 0x7E]).evs = [.none, .frameOk] := by
  decide

/-! ### Assembler lines -/

theorem test_readLine : readLine "RX.BYTE 0x7E ; a flag".toList = some (.rxByte 0x7E) := by decide
theorem test_writeLine : asmInstr (.crcUpdate 0x31) = "CRC.UPDATE 0x31".toList := by decide

/-! ### Witnesses: states and operands that meet the hypotheses of the obligations -/

theorem test_witness_EncodedRequestDecodesBack : encode (.rxByte 0x7E) = some 0x217E := by decide

/-- A word for each item of the condition, and a state that is to run it. -/
theorem test_witness_IllegalWordsAreRefused :
    (3 ≤ ((0x3000 : Word) >>> 12).toNat) ∧
    (((0x02AA : Word) >>> 12).toNat = 0 ∧ 2 ≤ (((0x02AA : Word) >>> 8) &&& 0xF).toNat) ∧
    (((0x1400 : Word) >>> 12).toNat = 1 ∧ 4 ≤ (((0x1400 : Word) >>> 8) &&& 0xF).toNat) ∧
    (((0x2300 : Word) >>> 12).toNat = 2 ∧ 3 ≤ (((0x2300 : Word) >>> 8) &&& 0xF).toNat) ∧
    (((0x2201 : Word) >>> 12).toNat = 2 ∧ (((0x2201 : Word) >>> 8) &&& 0xF).toNat = 2 ∧
      ((0x2201 : Word) &&& 0xFF).toNat ≠ 0) ∧
    ({ State.reset with issued := [.issue (.command 0x3000)] } : State).issued = .issue (.command 0x3000) :: [] := by
  decide

theorem test_witness_AssemblerLineReadsBack : (encode (.txByte 0x7E)).isSome = true := by decide

theorem test_witness_StepRunsTheDecodedOperation :
    ({ midFrame with issued := [.issue (.unpack 4 [0x7E])] } : State).issued = .issue (.unpack 4 [0x7E]) :: [] ∧
    decodeRequest (.unpack 4 [0x7E]) = .instr (.rxUnpack 4 [0x7E]) ∧
    decodeTableWord 16 0x117E = some (.txByte 0x7E) := by decide

theorem test_witness_StepWithoutAnOperation :
    midFrame.issued = [] ∧
    ({ midFrame with issued := [.lend [0xAA, 0xBB]] } : State).issued = .lend [0xAA, 0xBB] :: [] := by decide

theorem test_midFrame_rx : RxInv midFrame.cfg midFrame.rx where
  idle_is_reset := by decide
  start_is_fresh := by decide
  data_has_byte := by decide
  crc_of_emitted := ⟨[0x41], by decide, by decide⟩
  count_fits := by decide

theorem test_midFrame_tx : TxInv midFrame.cfg midFrame.tx where
  idle_or_data := by decide
  crc_of_packed := ⟨[0x41], by decide, by decide⟩
  idle_is_empty := by decide
  count_fits := by decide

theorem test_midFrame_inv : midFrame.Inv where
  rx_inv := test_midFrame_rx
  tx_inv := test_midFrame_tx
  dst_wf := by decide

/-- `midFrame` with the closing flag issued. -/
def midFrameFlag : State := { midFrame with issued := [.issue (.command 0x217E)] }

theorem test_midFrameFlag_inv : midFrameFlag.Inv where
  rx_inv := test_midFrame_rx
  tx_inv := test_midFrame_tx
  dst_wf := by decide

theorem test_witness_StepKeepsTheInvariants :
    midFrameFlag.Inv ∧
    step midFrameFlag = .next { midFrame with rx := RxCtx.reset, rsp := some (.prim 0 .frameOk []) } :=
  ⟨test_midFrameFlag_inv, eq_next (by decide)⟩

theorem test_witness_OperationsTouchTheirChannelOnly :
    (exec (.rxByte 0x41) midFrame =
      .next { midFrame with rx := { st := .data, crc := 0x6166, cnt := 4, lb0 := 0xB9, lb1 := 0x41 },
                            rsp := some (.prim 1 .none [0x15]) } ∧
      channelOf (.rxByte 0x41) ≠ .crc ∧ channelOf (.rxByte 0x41) ≠ .tx ∧ (encode (.rxByte 0x41)).isSome = true) ∧
    (exec .txOpen midFrame = .next { midFrame with rsp := some (.prim 0 .none []) } ∧ channelOf .txOpen ≠ .rx) ∧
    exec .rxDone midFrame = .next { midFrame with rsp := some (.prim 0 .none []) } :=
  ⟨⟨eq_next (by decide), by decide⟩, ⟨eq_next (by decide), by decide⟩, eq_next (by decide)⟩

theorem test_witness_OperationsOnDifferentChannelsCommute :
    channelOf (.rxByte 0x7E) ≠ channelOf .txFinal ∧
    exec (.rxByte 0x7E) midFrame = .next { midFrame with rx := RxCtx.reset, rsp := some (.prim 0 .frameOk []) } ∧
    exec .txFinal midFrame =
      .next { midFrame with tx := TxCtx.reset, rsp := some (.prim 3 .none [0x15, 0xB9, 0x7E]) } :=
  ⟨by decide, eq_next (by decide), eq_next (by decide)⟩

/-- Two states that differ in every register of the three channels; the host initialises each before it uses it. -/
theorem test_witness_InitialisedRunsIgnoreTheStartState :
    let acts : List HostAction :=
      [.issue (.command 0x2000), .issue (.unpack 4 [0x7E, 0x41]), .issue (.command 0x1000), .issue (.command 0x1141)]
    let s : State := { State.reset with issued := acts }
    let t : State := { midFrame with crc := { acc := 0x1234 }, dst := [], issued := acts }
    s.cfg = t.cfg ∧ s.dst = t.dst ∧ s.issued = t.issued ∧ s.rsp = t.rsp ∧
      initsFirst false false false s.issued = true ∧ s.rx ≠ t.rx ∧ s.tx ≠ t.tx ∧ s.crc ≠ t.crc := by decide

/-- A next state with a datum, one with a count, and one with an error code. -/
theorem test_witness_ResponsesFitTheirFields :
    midFrame.cfg.wf = true ∧ midFrame.Inv ∧
    rspOf (exec (.crcUpdate 0x31) midFrame) = some (.prim 51074 .none []) ∧
    rspOf (exec (.rxUnpack 4 [0x7D, 0x7E]) midFrame) = some (.counted (-3) 2) ∧
    rspOf (exec (.txFinalize 2) midFrame) = some (.final (-1)) :=
  ⟨by decide, test_midFrame_inv, by decide, by decide, by decide⟩

theorem test_witness_MacroOperandsOutOfRangeAreRefused :
    2 ^ (State.reset.cfg.retW - 1) - 1 < 2147483648 ∧
    2 ^ (({ State.reset with cfg := narrow } : State).cfg.retW - 1) - 1 < ([0x41, 0x42] : List Byte).length := by
  decide

theorem test_witness_OneChangedByteChangesTheCrc : (0xB9 : Byte) ≠ 0xB8 := by decide

theorem test_witness_ChecksumRunsOverAStream :
    ({ State.reset with crc := { acc := 0xB915 } } : State).crc.acc = crcOf [0x41] := by decide

/-- Both sides of the limit of two bytes. -/
theorem test_witness_AcceptLagsByTwoBytes :
    2 ≤ (rxAt .data 0xFFFF 2 0x41 0x15).rx.cnt ∧ (rxAt .data 0xFFFF 1 0x41 0x00).rx.cnt < 2 := by decide

theorem test_witness_RxInitAbandonsTheFrame :
    RxInv State.reset.cfg State.reset.rx ∧ State.reset.rx.st = .idle ∧
    exec .rxInit State.reset = .next { State.reset with rsp := some (.prim 0 .none []) } :=
  ⟨⟨by decide, by decide, by decide, ⟨[], by decide, by decide⟩, by decide⟩, by decide, eq_next (by decide)⟩

theorem test_witness_RxByteInIdle : State.reset.rx.st = .idle := by decide

/-- The largest count at which a byte is accepted. -/
theorem test_witness_RxByteInStart :
    (rxAt .start 0xFFFF 0 0x00 0x00).rx.st = .start ∧ (rxAt .start 0xFFFF 0 0x00 0x00).rx.cnt = 0 ∧
    (rxAt .start 0xFFFF 4294967294 0x00 0x00).rx.st = .start ∧
    (rxAt .start 0xFFFF 4294967294 0x00 0x00).rx.cnt + 1 < 2 ^ State.reset.cfg.countW ∧
    (0x7F : Byte) ≠ FLAG ∧ (0x7F : Byte) ≠ ESC := by decide

theorem test_witness_RxByteInData :
    (rxAt .data 0xB915 4294967294 0xB9 0x15).rx.st = .data ∧
    (rxAt .data 0xB915 4294967294 0xB9 0x15).rx.cnt + 1 < 2 ^ State.reset.cfg.countW ∧
    (0x7C : Byte) ≠ FLAG ∧ (0x7C : Byte) ≠ ESC ∧ ESC ≠ FLAG := by decide

/-- A good frame with the slots in each of the two positions, a CRC that differs, and a single data byte. -/
theorem test_witness_RxClosingFlagComparesTheCrc :
    (midFrame.rx.st = .data ∧ 2 ≤ midFrame.rx.cnt ∧ midFrame.rx.cnt % 2 = 1 ∧
      midFrame.rx.lb0 ++ midFrame.rx.lb1 = midFrame.rx.crc) ∧
    ((rxAt .data 0xFFFF 2 0xFF 0xFF).rx.cnt % 2 = 0 ∧ 2 ≤ (rxAt .data 0xFFFF 2 0xFF 0xFF).rx.cnt ∧
      (rxAt .data 0xFFFF 2 0xFF 0xFF).rx.lb1 ++ (rxAt .data 0xFFFF 2 0xFF 0xFF).rx.lb0 =
        (rxAt .data 0xFFFF 2 0xFF 0xFF).rx.crc) ∧
    ¬(2 ≤ (rxAt .data 0xB915 3 0xB8 0x15).rx.cnt ∧
      (rxAt .data 0xB915 3 0xB8 0x15).rx.lb0 ++ (rxAt .data 0xB915 3 0xB8 0x15).rx.lb1 =
        (rxAt .data 0xB915 3 0xB8 0x15).rx.crc) ∧
    ¬(2 ≤ (rxAt .data 0xFFFF 1 0xFF 0x00).rx.cnt) := by decide

theorem test_witness_RxByteInEscaped :
    (rxAt .escaped 0xFFFF 4294967294 0x41 0x15).rx.st = .escaped ∧
    (rxAt .escaped 0xFFFF 4294967294 0x41 0x15).rx.cnt + 1 < 2 ^ State.reset.cfg.countW ∧
    (0x5E : Byte) ≠ FLAG ∧ (0x5E : Byte) ≠ ESC ∧ (ESC = FLAG ∨ ESC = ESC) := by decide

theorem test_witness_RxByteAtFullCountIsRefused :
    2 ^ State.reset.cfg.countW - 1 ≤ (rxAt .data 0xFFFF 4294967295 0x41 0x15).rx.cnt ∧
    (rxAt .data 0xFFFF 4294967295 0x41 0x15).rx.st ≠ .idle ∧ (0x00 : Byte) ≠ FLAG ∧ (0x00 : Byte) ≠ ESC := by decide

theorem test_witness_RxDoneReportsIdle : State.reset.rx.st = .idle ∧ midFrame.rx.st ≠ .idle := by decide

/-- Each class of byte, an event and none. -/
theorem test_witness_RxTransitionTable :
    (0x00 : Byte) ≠ FLAG ∧ (0x00 : Byte) ≠ ESC ∧ (rxStep midFrame.rx FLAG).ev ≠ .none := by decide

/-- A step that opens a frame and a step that ends one. -/
theorem test_witness_OnlyAFlagOpensAFrame :
    (rxOf (step { State.reset with issued := [.issue (.command 0x217E)] }) = some { RxCtx.reset with st := .start }) ∧
    (midFrameFlag.rx.st ≠ .idle ∧ rxOf (step midFrameFlag) = some RxCtx.reset) := by decide

/-- A frame at the largest count. -/
def fullAccept : State := rxAt .data 0xFFFF 4294967295 0x41 0x15

/-- A byte that is accepted with room, one at the limit, an event, and a list that fits exactly below the limit. -/
theorem test_witness_RxBytesFeedTheDeframer :
    (rxWouldAccept fullAccept.rx 0x41 = true ∧ 2 ^ fullAccept.cfg.countW - 1 ≤ fullAccept.rx.cnt) ∧
    (rxStep midFrame.rx FLAG).ev ≠ .none ∧
    rxWouldAccept midFrame.rx 0x41 = true ∧ midFrame.rx.cnt + 1 < 2 ^ midFrame.cfg.countW ∧
    (rxAt .data 0xFFFF 4294967293 0x41 0x15).rx.cnt + ([0x41, 0x42] : List Byte).length <
      2 ^ State.reset.cfg.countW := by decide

theorem test_witness_RxCrcCoversEmittedBytes : (rxFeed RxCtx.reset [0x7E, 0x41, 0x42, 0x43]).quiet := by
  unfold Fed.quiet; decide

/-- A leading ESC as garbage, and units of both kinds. -/
theorem test_witness_DeframerReadsTheWireGrammar :
    FLAG ∉ ([0x00, 0x7D] : List Byte) ∧
    ([⟨0x61, true⟩, ⟨0x15, false⟩, ⟨0xB9, false⟩] : List WireUnit) ≠ [] ∧
    ∀ u ∈ ([⟨0x61, true⟩, ⟨0x15, false⟩, ⟨0xB9, false⟩] : List WireUnit), u.legal = true := by decide

theorem test_witness_ShortFrames : (0xFF : Byte) ≠ 0x7E ∧ (0xFF : Byte) ≠ 0x7D := by decide

/-- The largest capacity. -/
theorem test_witness_UnpackEndsOneOfFiveWays :
    capOk midFrame.cfg 2147483647 = true ∧ srcOk midFrame.cfg [0x41, 0x7E] = true ∧
    UnpackRoom midFrame.cfg 2147483647 0 midFrame.rx [0x41, 0x7E] :=
  ⟨by decide, by decide, unpackRoom_of_count (by decide)⟩

/-- `midFrame` with two-bit counts: its count of 3 is the limit. -/
def fullFrame : State := { midFrame with cfg := { Config.default with countW := 2 } }

theorem test_witness_UnpackAtFullCountIsRefused :
    capOk fullFrame.cfg 1 = true ∧ srcOk fullFrame.cfg [0x55] = true ∧
    ¬UnpackRoom fullFrame.cfg 1 0 fullFrame.rx [0x55] :=
  ⟨by decide, by decide, fun h => by
    have := h 0 0x55 rfl (by unfold Fed.quiet; decide) (by decide) (by decide) (by decide)
    revert this; decide⟩

/-- A call that completes a frame, one that answers an error, and one that consumes everything. -/
theorem test_witness_CallerRecognisesACompletedFrame :
    midFrame.cfg.wf = true ∧
    exec (.rxUnpack 8 [0x7E]) midFrame =
      .next { midFrame with rx := RxCtx.reset, rsp := some (.counted 0 0) } ∧
    exec (.rxUnpack 8 [0x00, 0x7E]) midFrame =
      .next { midFrame with rx := RxCtx.reset, dst := [(0, 0x15)], rsp := some (.counted (-2) 1) } ∧
    exec (.rxUnpack 8 [0x7D]) midFrame =
      .next { midFrame with rx := { midFrame.rx with st := .escaped }, rsp := some (.counted 0 1) } :=
  ⟨by decide, eq_next (by decide), eq_next (by decide), eq_next (by decide)⟩

theorem test_witness_UnpackProgress :
    exec (.rxUnpack 0 [0x55]) midFrame = .next { midFrame with rsp := some (.counted 0 0) } :=
  eq_next (by decide)

/-- A schedule of single bytes, as long as the frame. -/
theorem test_witness_FrameRoundTripsUnderAnyChunking :
    State.reset.rx = RxCtx.reset ∧ ([0x7E] : List Byte).length + 3 ≤ 2 ^ State.reset.cfg.countW ∧
    (∀ c ∈ List.replicate 7 (1, 1), c.1 ≤ State.reset.cfg.maxCount ∧ c.2 ≤ State.reset.cfg.maxCount) ∧
    (∀ c ∈ List.replicate 7 (1, 1), 1 ≤ c.1 ∧ 1 ≤ c.2) ∧
    (frame [0x7E]).length ≤ (List.replicate 7 (1, 1)).length := by decide

theorem test_witness_GarbageThenFrameDeliversTheFrame :
    State.reset.rx = RxCtx.reset ∧ FLAG ∉ ([0x00, 0x7D, 0x41, 0xFF] : List Byte) ∧
    ([0x41] : List Byte).length + 3 ≤ 2 ^ State.reset.cfg.countW ∧ capOk State.reset.cfg 1 = true ∧
    srcOk State.reset.cfg ([0x00, 0x7D, 0x41, 0xFF] ++ frame [0x41]) = true ∧ ([0x41] : List Byte).length ≤ 1 := by
  decide

theorem test_witness_TwoFramesTakeTwoCalls :
    State.reset.rx = RxCtx.reset ∧ ([0x41] : List Byte).length + 3 ≤ 2 ^ State.reset.cfg.countW ∧
    ([0x42] : List Byte).length + 3 ≤ 2 ^ State.reset.cfg.countW ∧ capOk State.reset.cfg 2 = true ∧
    srcOk State.reset.cfg (frame [0x41] ++ frame [0x42]) = true ∧ ([0x41] : List Byte).length ≤ 2 ∧
    ([0x42] : List Byte).length ≤ 2 :=
  ⟨by decide, by decide, by decide, by decide, by decide, by decide, by decide⟩

theorem test_witness_EscapeHidesReservedBytes :
    ((0x7E : Byte) = 0x7E ∨ (0x7E : Byte) = 0x7D) ∧ ((0x5E : Byte) ≠ 0x7E ∧ (0x5E : Byte) ≠ 0x7D) ∧
    (txEsc 0x7D)[0]? = some 0x7D := by decide

theorem test_witness_TxOpenEmitsTheFlagOnce : State.reset.tx.st = .idle ∧ midFrame.tx.st ≠ .idle := by decide

/-- Both sides of the count's limit. -/
theorem test_witness_TxByteEscapesAndFolds :
    (txAt .data 0xB915 4294967294).tx.cnt + 1 < 2 ^ State.reset.cfg.countW ∧
    2 ^ State.reset.cfg.countW - 1 ≤ (txAt .data 0xB915 4294967295).tx.cnt := by decide

theorem test_witness_TxFinalClosesTheFrame : TxInv midFrame.cfg midFrame.tx := test_midFrame_tx

theorem test_witness_TxPrimitivesBuildTheFrame :
    State.reset.tx = TxCtx.reset ∧ ([0x41, 0x7E] : List Byte).length < 2 ^ State.reset.cfg.countW := by decide

/-- No room for the flag, and room for it alone. -/
theorem test_witness_PackFillsTheDestinationWithWholeUnits :
    capOk State.reset.cfg 1 = true ∧ srcOk State.reset.cfg [0x7E, 0x41] = true ∧
    (0 < (if State.reset.tx.st = .idle then [FLAG] else [] : List Byte).length) ∧
    ((if State.reset.tx.st = .idle then [FLAG] else [] : List Byte).length ≤ 1) ∧
    PackRoom State.reset.cfg 1 1 State.reset.tx [0x7E, 0x41] :=
  ⟨by decide, by decide, by decide, by decide, packRoom_of_count (by decide)⟩

theorem test_witness_PackAtFullCountIsRefused :
    capOk Config.default 4 = true ∧ srcOk Config.default [0x41] = true ∧
    (txOpenOut (txAt .data 0xB915 4294967295).tx).length ≤ 4 ∧
    ¬PackRoom Config.default 4 0 (txAt .data 0xB915 4294967295).tx [0x41] :=
  ⟨by decide, by decide, by decide, fun h => by
    have := h 0 (by decide) (by decide)
    revert this; decide⟩

/-- The three ways of no progress. -/
theorem test_witness_PackProgress :
    exec (.txPack 4 []) midFrame = .next { midFrame with rsp := some (.counted 0 0) } ∧
    exec (.txPack 0 [0x41]) State.reset = .next { State.reset with rsp := some (.counted 0 0) } ∧
    exec (.txPack 1 [0x7D]) midFrame = .next { midFrame with rsp := some (.counted 0 0) } :=
  ⟨eq_next (by decide), eq_next (by decide), eq_next (by decide)⟩

/-- One byte too little, and just enough. -/
theorem test_witness_FinalizeWritesTheTrailerOrNothing :
    capOk midFrame.cfg 2 = true ∧ capOk midFrame.cfg 3 = true ∧ (txFinalOut midFrame.tx).length = 3 := by decide

theorem test_witness_FinalizeNeedsThreeToFive :
    TxInv midFrame.cfg midFrame.tx ∧ TxInv State.reset.cfg State.reset.tx ∧ State.reset.tx.st = .idle ∧
    capOk State.reset.cfg 5 = true :=
  ⟨test_midFrame_tx, ⟨by decide, ⟨[], by decide, by decide⟩, by decide, by decide⟩, by decide, by decide⟩

theorem test_witness_StreamedFrameEqualsOneShot :
    State.reset.tx = TxCtx.reset ∧ ([0x41, 0x7E] : List Byte).length < 2 ^ State.reset.cfg.countW ∧
    (∀ c ∈ List.replicate 2 (3, 1), c.1 ≤ State.reset.cfg.maxCount ∧ c.2 ≤ State.reset.cfg.maxCount) ∧
    5 ≤ State.reset.cfg.maxCount ∧ (∀ c ∈ List.replicate 2 (3, 1), 3 ≤ c.1 ∧ 1 ≤ c.2) ∧
    ([0x41, 0x7E] : List Byte).length ≤ (List.replicate 2 (3, 1)).length := by decide

end Sys2Proof.Tests
end

/-! PROOFS of the statements of 10_state.md. First the rules of the step and of the operations (what an operation
writes, said once by channel), then the two invariants kept by the parts of the operations, then the statements. -/

namespace Sys2Proof.Machine

/-! ### The step on an issued operation -/

/-- The instruction of a decoding is there exactly when the decoder answers one. -/
theorem toOption_eq_some {d : Decoded} {i : Instr} : d.toOption = some i ↔ d = .instr i := by
  cases d <;> simp [Decoded.toOption]

/-- An issued operation is executed after its action is taken off the list. -/
theorem step_of_issue {s : State} {r : Request} {rest : List HostAction} {i : Instr}
    (hs : s.issued = .issue r :: rest) (hd : decodeRequest r = .instr i) :
    step s = exec i { s with issued := rest } := by
  simp only [step, hs, hd]

/-! ### What an operation writes

The two macro-operations with a loop come first, by what their loop answers: a fact that the loop keeps is carried over
to the operation by these, where `execRxUnpack_next` and `execTxPack_next` say what the answer is. -/

/-- `RX.UNPACK` answers the context and the cells of its loop (41_rx_deframer.md R92). -/
theorem execRxUnpack_loop {cap : Nat} {src : List Byte} {s t : State} (h : execRxUnpack cap src s = .next t) :
    ∃ e, unpackLoop s.cfg cap src 0 0 s.rx s.dst = .next e ∧
      t = { s with rx := e.ctx, dst := e.dst }.respond (.counted e.ret e.consumed) := by
  unfold execRxUnpack at h
  split at h
  · split at h
    · next e he => exact ⟨e, he, (Host.Outcome.next.inj h).symm⟩
    · cases h
    · cases h
  · cases h

/-- `TX.PACK` leaves the channel and the cells, or answers those of its loop (42_tx_framer.md R111). -/
theorem execTxPack_loop {cap : Nat} {src : List Byte} {s t : State} (h : execTxPack cap src s = .next t) :
    t = s.respond (.counted 0 0) ∨
    ∃ m e, packLoop s.cfg cap src 0 (txOpenOut s.tx).length (txOpened s.tx) m = .next e ∧
      t = { s with tx := e.ctx, dst := e.dst }.respond (.counted e.ret e.consumed) := by
  unfold execTxPack at h
  split at h
  · dsimp only at h
    split at h
    · exact .inl (Host.Outcome.next.inj h).symm
    · split at h
      · cases h
      · next m _ =>
        split at h
        · next e he => exact .inr ⟨m, e, he, (Host.Outcome.next.inj h).symm⟩
        · cases h
        · cases h
  · cases h

/-- An operation of the channel `CRC` writes `CRC` and delivers a response. -/
theorem exec_crc_next {i : Instr} {s t : State} (hc : channelOf i = .crc) (h : exec i s = .next t) :
    ∃ c r, t = { s with crc := c }.respond r := by
  cases i with
  | crcInit => exact ⟨_, _, (Host.Outcome.next.inj h).symm⟩
  | crcUpdate b => exact ⟨_, _, (Host.Outcome.next.inj h).symm⟩
  | _ => cases hc

/-- An operation of the channel `RX` writes `RX` and the destination cells, and delivers a response. -/
theorem exec_rx_next {i : Instr} {s t : State} (hc : channelOf i = .rx) (h : exec i s = .next t) :
    ∃ x d r, t = { s with rx := x, dst := d }.respond r := by
  cases i with
  | rxInit => exact ⟨_, _, _, (Host.Outcome.next.inj h).symm⟩
  | rxByte b => exact ⟨_, _, _, (execRxByte_next h).1⟩
  | rxDone => exact ⟨_, _, _, (Host.Outcome.next.inj h).symm⟩
  | rxUnpack cap src =>
    obtain ⟨e, -, rfl⟩ := execRxUnpack_loop h
    exact ⟨_, _, _, rfl⟩
  | _ => cases hc

/-- An operation of the channel `TX` writes `TX` and the destination cells, and delivers a response. -/
theorem exec_tx_next {i : Instr} {s t : State} (hc : channelOf i = .tx) (h : exec i s = .next t) :
    ∃ x d r, t = { s with tx := x, dst := d }.respond r := by
  cases i with
  | txInit => exact ⟨_, _, _, (Host.Outcome.next.inj h).symm⟩
  | txOpen => exact ⟨_, _, _, (Host.Outcome.next.inj h).symm⟩
  | txByte b => exact ⟨_, _, _, (execTxByte_next h).1⟩
  | txFinal => exact ⟨_, _, _, (Host.Outcome.next.inj h).symm⟩
  | txPack cap src =>
    obtain rfl | ⟨m, e, -, rfl⟩ := execTxPack_loop h
    · exact ⟨_, _, _, rfl⟩
    · exact ⟨_, _, _, rfl⟩
  | txFinalize cap =>
    obtain ⟨-, ⟨-, rfl⟩ | ⟨-, rfl⟩⟩ := execTxFinalize_next h
    · exact ⟨_, _, _, rfl⟩
    · exact ⟨_, _, _, rfl⟩
  | _ => cases hc

/-- The access matrix of 10_state.md R30: no operation writes the parameters, the list of issued actions or a register
of another channel. -/
theorem exec_frame {i : Instr} {s t : State} (h : exec i s = .next t) :
    t.cfg = s.cfg ∧ t.issued = s.issued ∧ (channelOf i ≠ .crc → t.crc = s.crc) ∧
    (channelOf i ≠ .rx → t.rx = s.rx) ∧ (channelOf i ≠ .tx → t.tx = s.tx) := by
  cases hc : channelOf i with
  | crc => obtain ⟨c, r, rfl⟩ := exec_crc_next hc h; simp
  | rx => obtain ⟨x, d, r, rfl⟩ := exec_rx_next hc h; simp
  | tx => obtain ⟨x, d, r, rfl⟩ := exec_tx_next hc h; simp

/-- A primitive writes no destination cell (20_memory.md R34). -/
theorem exec_dst_of_primitive {i : Instr} {s t : State} (hp : (encode i).isSome) (h : exec i s = .next t) :
    t.dst = s.dst := by
  cases i with
  | rxByte b => rw [(execRxByte_next h).1]; rfl
  | txByte b => rw [(execTxByte_next h).1]; rfl
  | rxUnpack | txPack | txFinalize => cases hp
  | _ => rw [← Host.Outcome.next.inj h]; rfl

/-- Every operation leaves the destination cells as they are, or makes one run of writes from offset 0 on. -/
theorem exec_dst {i : Instr} {s t : State} (h : exec i s = .next t) :
    ∃ vs, t.dst = Memory.writeList s.dst 0 vs := by
  cases i with
  | rxUnpack cap src =>
    obtain ⟨-, -, k, ret, consumed, -, rfl, -⟩ := execRxUnpack_next h
    exact ⟨_, rfl⟩
  | txPack cap src =>
    obtain ⟨-, -, ⟨-, rfl⟩ | ⟨k, -, rfl, -⟩⟩ := execTxPack_next h
    · exact ⟨[], rfl⟩
    · exact ⟨_, rfl⟩
  | txFinalize cap =>
    obtain ⟨-, ⟨-, rfl⟩ | ⟨-, rfl⟩⟩ := execTxFinalize_next h
    · exact ⟨[], rfl⟩
    · exact ⟨_, rfl⟩
  | _ => exact ⟨[], exec_dst_of_primitive rfl h⟩

/-! ### The receive invariant -/

theorem rxInv_reset (cfg : Config) : RxInv cfg RxCtx.reset where
  idle_is_reset _ := rfl
  start_is_fresh h := by cases h
  data_has_byte h := by cases h
  crc_of_emitted := ⟨[], rfl, rfl⟩
  count_fits := Nat.zero_le _

/-- The reset context after an opening flag (41_rx_deframer.md R82). -/
theorem rxInv_started (cfg : Config) : RxInv cfg { RxCtx.reset with st := .start } where
  idle_is_reset h := by cases h
  start_is_fresh _ := ⟨rfl, rfl, rfl, rfl⟩
  data_has_byte h := by cases h
  crc_of_emitted := ⟨[], rfl, rfl⟩
  count_fits := Nat.zero_le _

/-- An escape byte inside a frame asks nothing new of the context (41_rx_deframer.md R83, R84). -/
theorem rxInv_escaped {cfg : Config} {x : RxCtx} (hx : RxInv cfg x) : RxInv cfg { x with st := .escaped } where
  idle_is_reset h := by cases h
  start_is_fresh h := by cases h
  data_has_byte h := by cases h
  crc_of_emitted := hx.crc_of_emitted
  count_fits := hx.count_fits

/-- `rx_accept` keeps the receive invariant where the count leaves room: what it emits continues the list that the CRC
is of (10_state.md R28 item d). -/
theorem rxAccept_keeps_inv {cfg : Config} {x : RxCtx} {d : Byte} (hx : RxInv cfg x)
    (hroom : x.cnt + 1 < 2 ^ cfg.countW) : RxInv cfg (rxAccept x d).ctx where
  idle_is_reset h := by simp at h
  start_is_fresh h := by simp at h
  data_has_byte _ := by simp
  crc_of_emitted := by
    obtain ⟨e, hlen, hcrc⟩ := hx.crc_of_emitted
    refine ⟨e ++ (rxAccept x d).out, ?_, by rw [rxAccept_crc, crcOf_append, hcrc]⟩
    rw [rxAccept_out, rxAccept_cnt, List.length_append, hlen]
    split
    · simp only [List.length_singleton]; omega
    · simp only [List.length_nil]; omega
  count_fits := by rw [rxAccept_cnt]; omega

/-- A receive step keeps the receive invariant, where an accept finds room in the count. -/
theorem rxStep_keeps_inv {cfg : Config} {x : RxCtx} {b : Byte} (hx : RxInv cfg x)
    (hroom : rxWouldAccept x b = true → x.cnt + 1 < 2 ^ cfg.countW) : RxInv cfg (rxStep x b).ctx := by
  rcases rxStep_cases x b with
    ⟨ha, e⟩ | ⟨_, hst, e⟩ | ⟨_, _, _, e⟩ | ⟨_, _, _, e⟩ | ⟨_, _, _, e⟩ | ⟨_, _, _, e⟩
  · rw [e]; exact rxAccept_keeps_inv hx (hroom ha)
  · -- From `IDLE` the context is the reset context, with `st` at `START` after a flag.
    rw [e, hx.idle_is_reset hst]
    split
    · exact rxInv_started cfg
    · exact rxInv_reset cfg
  · rw [e]; exact hx
  · rw [e]; exact rxInv_escaped hx
  · rw [e]; exact rxInv_reset cfg
  · rw [e]; exact rxInv_reset cfg

theorem rxStepChecked_keeps_inv {cfg : Config} {x : RxCtx} {b : Byte} {r : RxResult} (hx : RxInv cfg x)
    (h : rxStepChecked cfg x b = some r) : RxInv cfg r.ctx := by
  obtain ⟨rfl, hroom⟩ := rxStepChecked_some h
  exact rxStep_keeps_inv hx hroom

/-- The loop of `RX.UNPACK` keeps the receive invariant. -/
theorem unpackLoop_keeps_rxInv {cfg : Config} {cap : Nat} {src : List Byte} {i w : Nat} {x : RxCtx} {m : Memory}
    {e : MacroEnd RxCtx} (hx : RxInv cfg x) (h : unpackLoop cfg cap src i w x m = .next e) : RxInv cfg e.ctx := by
  induction src generalizing i w x m with
  | nil => cases h; exact hx
  | cons b rest ih =>
    unfold unpackLoop at h
    split at h
    · cases h; exact hx
    · split at h
      · cases h
      · next r hr =>
        have hctx : RxInv cfg r.ctx := rxStepChecked_keeps_inv hx hr
        split at h
        · cases h
        · split at h
          · exact ih hctx h
          all_goals cases h; exact hctx

theorem exec_keeps_rxInv {i : Instr} {s t : State} (hs : RxInv s.cfg s.rx) (h : exec i s = .next t) :
    RxInv s.cfg t.rx := by
  by_cases hc : channelOf i = .rx
  · cases i with
    | rxInit => rw [← Host.Outcome.next.inj h]; exact rxInv_reset _
    | rxByte b =>
      obtain ⟨rfl, hroom⟩ := execRxByte_next h
      exact rxStep_keeps_inv hs hroom
    | rxDone => rw [← Host.Outcome.next.inj h]; exact hs
    | rxUnpack cap src =>
      obtain ⟨e, he, rfl⟩ := execRxUnpack_loop h
      exact unpackLoop_keeps_rxInv hs he
    | _ => cases hc
  · obtain ⟨-, -, -, hrx, -⟩ := exec_frame h
    rwa [hrx hc]

/-! ### The transmit invariant -/

theorem txInv_reset (cfg : Config) : TxInv cfg TxCtx.reset where
  idle_or_data := .inl rfl
  crc_of_packed := ⟨[], rfl, rfl⟩
  idle_is_empty _ := rfl
  count_fits := Nat.zero_le _

theorem txOpened_keeps_inv {cfg : Config} {x : TxCtx} (hx : TxInv cfg x) : TxInv cfg (txOpened x) where
  idle_or_data := by
    rw [txOpened_st]
    split
    · exact .inr rfl
    · exact hx.idle_or_data
  crc_of_packed := by simpa using hx.crc_of_packed
  idle_is_empty h := absurd h (txOpened_not_idle x)
  count_fits := by simpa using hx.count_fits

/-- Folding a byte in keeps the transmit invariant in an open frame where the count leaves room: the byte continues the
list that the CRC is of (10_state.md R29 item b). -/
theorem txFold_keeps_inv {cfg : Config} {x : TxCtx} {b : Byte} (hx : TxInv cfg x) (hopen : x.st ≠ .idle)
    (hroom : x.cnt + 1 < 2 ^ cfg.countW) : TxInv cfg (txFold x b) where
  idle_or_data := hx.idle_or_data
  crc_of_packed := by
    obtain ⟨p, hlen, hcrc⟩ := hx.crc_of_packed
    exact ⟨p ++ [b], by simp [hlen], by simp [hcrc]⟩
  idle_is_empty h := absurd h hopen
  count_fits := by rw [txFold_cnt]; omega

/-- The loop of `TX.PACK` keeps the transmit invariant of an open frame. -/
theorem packLoop_keeps_txInv {cfg : Config} {cap : Nat} {src : List Byte} {i w : Nat} {x : TxCtx} {m : Memory}
    {e : MacroEnd TxCtx} (hx : TxInv cfg x) (hopen : x.st ≠ .idle) (h : packLoop cfg cap src i w x m = .next e) :
    TxInv cfg e.ctx := by
  induction src generalizing i w x m with
  | nil => cases h; exact hx
  | cons b rest ih =>
    unfold packLoop countFull at h
    split at h
    · cases h
    · next hfull =>
      have hroom : x.cnt + 1 < 2 ^ cfg.countW := by
        simp only [decide_eq_true_eq] at hfull; omega
      split at h
      · cases h; exact hx
      · split at h
        · cases h
        · exact ih (txFold_keeps_inv hx hopen hroom) hopen h

theorem exec_keeps_txInv {i : Instr} {s t : State} (hs : TxInv s.cfg s.tx) (h : exec i s = .next t) :
    TxInv s.cfg t.tx := by
  by_cases hc : channelOf i = .tx
  · cases i with
    | txInit => rw [← Host.Outcome.next.inj h]; exact txInv_reset _
    | txOpen => rw [← Host.Outcome.next.inj h]; exact txOpened_keeps_inv hs
    | txByte b =>
      obtain ⟨rfl, hroom⟩ := execTxByte_next h
      exact txFold_keeps_inv (txOpened_keeps_inv hs) (txOpened_not_idle _) (by simpa using hroom)
    | txFinal => rw [← Host.Outcome.next.inj h]; exact txInv_reset _
    | txPack cap src =>
      obtain rfl | ⟨m, e, he, rfl⟩ := execTxPack_loop h
      · exact hs
      · exact packLoop_keeps_txInv (txOpened_keeps_inv hs) (txOpened_not_idle _) he
    | txFinalize cap =>
      obtain ⟨-, ⟨-, rfl⟩ | ⟨-, rfl⟩⟩ := execTxFinalize_next h
      · exact hs
      · exact txInv_reset _
    | _ => cases hc
  · obtain ⟨-, -, -, -, htx⟩ := exec_frame h
    rwa [htx hc]

/-! ### The invariant of the machine -/

theorem exec_keeps_inv {i : Instr} {s t : State} (hs : s.Inv) (h : exec i s = .next t) : t.Inv := by
  obtain ⟨hcfg, -⟩ := exec_frame h
  obtain ⟨vs, hdst⟩ := exec_dst h
  refine ⟨?_, ?_, ?_⟩
  · rw [hcfg]; exact exec_keeps_rxInv hs.rx_inv h
  · rw [hcfg]; exact exec_keeps_txInv hs.tx_inv h
  · rw [hdst]; exact wf_writeList vs s.dst 0 hs.dst_wf

/-- The list of issued actions is no part of the invariant. -/
theorem State.Inv.set_issued {s : State} (hs : s.Inv) (rest : List HostAction) :
    State.Inv { s with issued := rest } :=
  ⟨hs.rx_inv, hs.tx_inv, hs.dst_wf⟩

/-- Settles O10, by the three things a step can do. -/
theorem stepKeepsTheInvariants : Obligations.StepKeepsTheInvariants := by
  intro s t hs h
  obtain ⟨-, rfl⟩ | ⟨cells, rest, -, rfl⟩ | ⟨r, rest, i, -, -, hi⟩ := step_next h
  · exact hs
  · exact ⟨hs.rx_inv, hs.tx_inv, wf_lendDst cells _⟩
  · exact exec_keeps_inv (hs.set_issued rest) hi

/-- Settles O9. -/
theorem resetMeetsTheInvariants : Obligations.ResetMeetsTheInvariants :=
  ⟨rxInv_reset _, txInv_reset _, wf_reset_dst⟩

/-! ### The frame and the step -/

/-- Settles O12, from the frame of every operation and of the primitives. -/
theorem operationsTouchTheirChannelOnly : Obligations.OperationsTouchTheirChannelOnly := by
  intro i s t h
  obtain ⟨hcfg, hissued, hcrc, hrx, htx⟩ := exec_frame h
  refine ⟨hcfg, hissued, hcrc, hrx, htx, fun hp a => by rw [exec_dst_of_primitive hp h], ?_, ?_⟩
  · rintro rfl
    rw [← Host.Outcome.next.inj h]; rfl
  · rintro rfl
    rw [← Host.Outcome.next.inj h]
    exact ⟨txOpened_crc s.tx, txOpened_cnt s.tx⟩

/-- Settles O6. -/
theorem stepRunsTheDecodedOperation : Obligations.StepRunsTheDecodedOperation := by
  refine ⟨fun s r rest i hs hd => step_of_issue hs hd, fun s w i hw => ?_⟩
  have hd : decodeRequest (.command (tableWord 16 w)) = .instr i := toOption_eq_some.mp hw
  exact step_of_issue (withFetchWord_issued s 16 w) hd

/-! ### The receive CRC over a list of bytes -/

/-- Nothing is reported over a list exactly when the first step and the rest report nothing. -/
theorem rxFeed_cons_quiet {x : RxCtx} {b : Byte} {bs : List Byte} :
    (rxFeed x (b :: bs)).quiet ↔ (rxStep x b).ev = .none ∧ (rxFeed (rxStep x b).ctx bs).quiet := by
  simp [Fed.quiet]

/-- Settles O38, by induction on the bytes fed. -/
theorem rxCrcCoversEmittedBytes : Obligations.RxCrcCoversEmittedBytes := by
  intro x bs hq
  induction bs generalizing x with
  | nil => rfl
  | cons b bs ih =>
    obtain ⟨hev, hrest⟩ := rxFeed_cons_quiet.mp hq
    calc (rxFeed x (b :: bs)).ctx.crc
        = (rxFeed (rxStep x b).ctx bs).out.foldl crcUpdate (rxStep x b).ctx.crc := ih _ hrest
      _ = (rxFeed (rxStep x b).ctx bs).out.foldl crcUpdate ((rxStep x b).out.foldl crcUpdate x.crc) := by
          rw [rxStep_crc hev]
      _ = (rxFeed x (b :: bs)).out.foldl crcUpdate x.crc := by
          rw [rxFeed_cons, List.foldl_append]

end Sys2Proof.Machine

/-! PROOFS of the statements of 20_memory.md. First that no operation faults, then what an operation depends on: the
parameters and its own channel, and no destination cell. -/

namespace Sys2Proof.Machine

/-! ### No fault -/

theorem faults_iff {o : Host.Outcome State Fault Refusal} : faults o ↔ ∃ φ, o = .fault φ := by
  cases o with
  | next s => simp [faults]
  | fault φ => exact ⟨fun _ => ⟨φ, rfl⟩, fun _ => trivial⟩
  | refused r => simp [faults]

theorem execRxUnpack_not_fault {cap : Nat} {src : List Byte} {s : State} {φ : Fault} :
    execRxUnpack cap src s ≠ .fault φ := by
  intro h
  unfold execRxUnpack at h
  split at h
  · split at h
    · cases h
    · next hloop => exact unpackLoop_not_fault (Nat.zero_le cap) hloop
    · cases h
  · cases h

/-- `TX.PACK` checks the room for the opening flag before it writes it (42_tx_framer.md R111). -/
theorem execTxPack_not_fault {cap : Nat} {src : List Byte} {s : State} {φ : Fault} :
    execTxPack cap src s ≠ .fault φ := by
  intro h
  unfold execTxPack at h
  split at h
  · dsimp only at h
    split at h
    · cases h
    · next hroom =>
      rw [memWriteAll_eq cap (txOpenOut s.tx) s.dst 0 (by omega)] at h
      dsimp only at h
      split at h
      · cases h
      · next hloop => exact packLoop_not_fault hloop
      · cases h
  · cases h

/-- The space that `TX.FINALIZE` asks for is the length of what it writes (42_tx_framer.md R113). -/
theorem execTxFinalize_not_fault {cap : Nat} {s : State} {φ : Fault} : execTxFinalize cap s ≠ .fault φ := by
  intro h
  unfold execTxFinalize at h
  split at h
  · split at h
    · cases h
    · next hroom =>
      rw [memWriteAll_eq cap (txFinalOut s.tx) s.dst 0 (by rw [txFinalOut_length]; omega)] at h
      cases h
  · cases h

/-- Only the macro-operations write to the destination, and each keeps inside it. -/
theorem exec_not_fault {i : Instr} {s : State} {φ : Fault} : exec i s ≠ .fault φ := by
  intro h
  cases i with
  | rxByte b =>
    simp only [exec, execRxByte] at h
    split at h <;> cases h
  | txByte b =>
    simp only [exec, execTxByte] at h
    split at h <;> cases h
  | rxUnpack cap src => exact execRxUnpack_not_fault h
  | txPack cap src => exact execTxPack_not_fault h
  | txFinalize cap => exact execTxFinalize_not_fault h
  | _ => cases h

theorem step_not_fault {s : State} {φ : Fault} : step s ≠ .fault φ := by
  intro h
  unfold step at h
  split at h
  · cases h
  · cases h
  · split at h
    · cases h
    · exact exec_not_fault h

/-- Settles O11: a step faults only where an operation does, and no operation does. -/
theorem stepNeverFaults : Obligations.StepNeverFaults := by
  intro s h
  obtain ⟨φ, hφ⟩ := faults_iff.mp h
  exact step_not_fault hφ

/-! ### The registers of a channel -/

/-- What a channel's registers hold (10_state.md R14 to R21). -/
def Channel.Registers : Channel → Type
  | .crc => CrcCtx
  | .rx => RxCtx
  | .tx => TxCtx

/-- The registers of a channel in a state. -/
def State.registers (s : State) : (ch : Channel) → ch.Registers
  | .crc => s.crc
  | .rx => s.rx
  | .tx => s.tx

/-- The access matrix of 10_state.md R30, by channel. -/
theorem exec_registers_of_ne {i : Instr} {s t : State} (h : exec i s = .next t) {ch : Channel}
    (hch : ch ≠ channelOf i) : t.registers ch = s.registers ch := by
  obtain ⟨-, -, hcrc, hrx, htx⟩ := exec_frame h
  cases ch with
  | crc => exact hcrc hch.symm
  | rx => exact hrx hch.symm
  | tx => exact htx hch.symm

/-! ### What an operation depends on -/

/-- Whether the checked run of writes answers does not depend on what the cells hold. -/
theorem memWriteAll_some_of_some {cap w : Nat} {vs : List Byte} {m m₁ : Memory}
    (h : memWriteAll cap m w vs = some m₁) (m' : Memory) : ∃ m₂, memWriteAll cap m' w vs = some m₂ := by
  obtain ⟨-, rfl | hle⟩ := memWriteAll_some h
  · exact ⟨m', rfl⟩
  · exact ⟨_, memWriteAll_eq cap vs m' w hle⟩

/-- The loop of `RX.UNPACK` reads no destination cell (20_memory.md R40): over other cells it answers the same but for
the cells. -/
theorem unpackLoop_reads_no_cell {cfg : Config} {cap : Nat} {src : List Byte} {i w : Nat} {x : RxCtx} {m : Memory}
    {e : MacroEnd RxCtx} (h : unpackLoop cfg cap src i w x m = .next e) (m' : Memory) :
    ∃ d, unpackLoop cfg cap src i w x m' = .next { e with dst := d } := by
  induction src generalizing i w x m m' with
  | nil => cases h; exact ⟨m', rfl⟩
  | cons b rest ih =>
    unfold unpackLoop at h ⊢
    split at h
    · next hfull => rw [if_pos hfull]; cases h; exact ⟨m', rfl⟩
    · next hroom =>
      rw [if_neg hroom]
      split at h
      · cases h
      · next r hr =>
        split at h
        · cases h
        · next m₁ hm =>
          obtain ⟨m₂, hm₂⟩ := memWriteAll_some_of_some hm m'
          rw [hm₂]
          dsimp only
          split at h
          · exact ih h m₂
          all_goals cases h; exact ⟨m₂, rfl⟩

/-- The loop of `TX.PACK` reads no destination cell (20_memory.md R40). -/
theorem packLoop_reads_no_cell {cfg : Config} {cap : Nat} {src : List Byte} {i w : Nat} {x : TxCtx} {m : Memory}
    {e : MacroEnd TxCtx} (h : packLoop cfg cap src i w x m = .next e) (m' : Memory) :
    ∃ d, packLoop cfg cap src i w x m' = .next { e with dst := d } := by
  induction src generalizing i w x m m' with
  | nil => cases h; exact ⟨m', rfl⟩
  | cons b rest ih =>
    unfold packLoop at h ⊢
    split at h
    · cases h
    · next hcount =>
      rw [if_neg hcount]
      split at h
      · next hfull => rw [if_pos hfull]; cases h; exact ⟨m', rfl⟩
      · next hroom =>
        rw [if_neg hroom]
        split at h
        · cases h
        · next m₁ hm =>
          obtain ⟨m₂, hm₂⟩ := memWriteAll_some_of_some hm m'
          rw [hm₂]
          exact ih h m₂

/-- The outcome is an answer that shows the host and the channel what `t` does. -/
def AnswersAs (ch : Channel) (t : State) (o : Host.Outcome State Fault Refusal) : Prop :=
  ∃ t', o = .next t' ∧ t'.registers ch = t.registers ch ∧ t'.rsp = t.rsp

theorem execRxByte_answersAs {b : Byte} {s s' t : State} (h : execRxByte b s = .next t) (hcfg : s'.cfg = s.cfg)
    (hrx : s'.rx = s.rx) : AnswersAs .rx t (execRxByte b s') := by
  unfold execRxByte at h ⊢
  rw [hcfg, hrx]
  split at h
  · cases h
  · cases h; exact ⟨_, rfl, rfl, rfl⟩

theorem execRxUnpack_answersAs {cap : Nat} {src : List Byte} {s s' t : State} (h : execRxUnpack cap src s = .next t)
    (hcfg : s'.cfg = s.cfg) (hrx : s'.rx = s.rx) : AnswersAs .rx t (execRxUnpack cap src s') := by
  obtain ⟨hcap, hsrc, -⟩ := execRxUnpack_next h
  obtain ⟨e, hloop, rfl⟩ := execRxUnpack_loop h
  obtain ⟨d, hloop'⟩ := unpackLoop_reads_no_cell hloop s'.dst
  unfold execRxUnpack operandsOk
  rw [hcfg, hrx, hcap, hsrc, hloop']
  exact ⟨_, rfl, rfl, rfl⟩

theorem execTxByte_answersAs {b : Byte} {s s' t : State} (h : execTxByte b s = .next t) (hcfg : s'.cfg = s.cfg)
    (htx : s'.tx = s.tx) : AnswersAs .tx t (execTxByte b s') := by
  unfold execTxByte at h ⊢
  rw [hcfg, htx]
  split at h
  · cases h
  · next hroom => rw [if_neg hroom]; cases h; exact ⟨_, rfl, rfl, rfl⟩

theorem execTxPack_answersAs {cap : Nat} {src : List Byte} {s s' t : State} (h : execTxPack cap src s = .next t)
    (hcfg : s'.cfg = s.cfg) (htx : s'.tx = s.tx) : AnswersAs .tx t (execTxPack cap src s') := by
  unfold execTxPack at h ⊢
  rw [hcfg, htx]
  split at h
  · next hok =>
    rw [if_pos hok]
    dsimp only at h ⊢
    split at h
    · next hfull => rw [if_pos hfull]; cases h; exact ⟨_, rfl, htx, rfl⟩
    · next hroom =>
      rw [if_neg hroom]
      split at h
      · cases h
      · next m hm =>
        obtain ⟨m', hm'⟩ := memWriteAll_some_of_some hm s'.dst
        rw [hm']
        dsimp only
        split at h
        · next e he =>
          obtain ⟨d, hloop⟩ := packLoop_reads_no_cell he m'
          rw [hloop]; cases h; exact ⟨_, rfl, rfl, rfl⟩
        · cases h
        · cases h
  · cases h

theorem execTxFinalize_answersAs {cap : Nat} {s s' t : State} (h : execTxFinalize cap s = .next t)
    (hcfg : s'.cfg = s.cfg) (htx : s'.tx = s.tx) : AnswersAs .tx t (execTxFinalize cap s') := by
  unfold execTxFinalize at h ⊢
  rw [hcfg, htx]
  split at h
  · next hok =>
    rw [if_pos hok]
    split at h
    · next hshort => rw [if_pos hshort]; cases h; exact ⟨_, rfl, htx, rfl⟩
    · next hroom =>
      rw [if_neg hroom]
      split at h
      · cases h
      · next m hm =>
        obtain ⟨m', hm'⟩ := memWriteAll_some_of_some hm s'.dst
        rw [hm']; cases h; exact ⟨_, rfl, rfl, rfl⟩
  · cases h

/-- An operation depends on the parameters and on its own channel alone (10_state.md R30): a state with the same of
both gives the same registers of the channel and the same response. -/
theorem exec_answersAs {i : Instr} {s s' t : State} (h : exec i s = .next t) (hcfg : s'.cfg = s.cfg)
    (hreg : s'.registers (channelOf i) = s.registers (channelOf i)) : AnswersAs (channelOf i) t (exec i s') := by
  cases i with
  | crcInit => cases h; exact ⟨_, rfl, rfl, rfl⟩
  | crcUpdate b =>
    have hcrc : s'.crc = s.crc := hreg
    cases h
    simp only [exec, execCrcUpdate, hcrc]
    exact ⟨_, rfl, rfl, rfl⟩
  | rxInit => cases h; exact ⟨_, rfl, rfl, rfl⟩
  | rxByte b => exact execRxByte_answersAs h hcfg hreg
  | rxDone =>
    have hrx : s'.rx = s.rx := hreg
    cases h
    simp only [exec, execRxDone, hrx]
    exact ⟨_, rfl, hrx, rfl⟩
  | rxUnpack cap src => exact execRxUnpack_answersAs h hcfg hreg
  | txInit => cases h; exact ⟨_, rfl, rfl, rfl⟩
  | txByte b => exact execTxByte_answersAs h hcfg hreg
  | txOpen =>
    have htx : s'.tx = s.tx := hreg
    cases h
    simp only [exec, execTxOpen, htx]
    exact ⟨_, rfl, rfl, rfl⟩
  | txFinal =>
    have htx : s'.tx = s.tx := hreg
    cases h
    simp only [exec, execTxFinal, htx]
    exact ⟨_, rfl, rfl, rfl⟩
  | txPack cap src => exact execTxPack_answersAs h hcfg hreg
  | txFinalize cap => exact execTxFinalize_answersAs h hcfg hreg

/-! ### Two operations on different channels -/

/-- After an operation of another channel, an operation answers as it would have before it, and leaves what the first
did to the other channels. -/
theorem exec_after_other_channel {i j : Instr} {s a b : State} (hij : channelOf i ≠ channelOf j)
    (hi : exec i s = .next a) (hj : exec j s = .next b) :
    ∃ c, exec j a = .next c ∧ c.rsp = b.rsp ∧ c.registers (channelOf j) = b.registers (channelOf j) ∧
      ∀ ch, ch ≠ channelOf j → c.registers ch = a.registers ch := by
  obtain ⟨hcfg, -⟩ := exec_frame hi
  obtain ⟨c, hc, hreg, hrsp⟩ := exec_answersAs hj hcfg (exec_registers_of_ne hi hij.symm)
  exact ⟨c, hc, hrsp, hreg, fun ch hch => exec_registers_of_ne hc hch⟩

/-- Settles O13: each channel holds in both orders what its own operation made of it, and a third channel what it held
before. -/
theorem operationsOnDifferentChannelsCommute : Obligations.OperationsOnDifferentChannelsCommute := by
  intro i j s a b hij hi hj
  obtain ⟨c, hc, hcrsp, hcj, hcother⟩ := exec_after_other_channel hij hi hj
  obtain ⟨d, hd, hdrsp, hdi, hdother⟩ := exec_after_other_channel hij.symm hj hi
  have hreg : ∀ ch, c.registers ch = d.registers ch := by
    intro ch
    by_cases hchj : ch = channelOf j
    · subst hchj
      rw [hcj, hdother _ hij.symm]
    by_cases hchi : ch = channelOf i
    · subst hchi
      rw [hcother _ hij, hdi]
    calc c.registers ch = a.registers ch := hcother ch hchj
      _ = s.registers ch := exec_registers_of_ne hi hchi
      _ = b.registers ch := (exec_registers_of_ne hj hchj).symm
      _ = d.registers ch := (hdother ch hchi).symm
  exact ⟨c, d, hc, hd, hreg .crc, hreg .rx, hreg .tx, hcrsp, hdrsp⟩

end Sys2Proof.Machine

/-! PROOFS of the statements of 30_encoding.md. First the command words: their fields, and that the decoder answers an
operation exactly for the word the encoder writes for it. -/

namespace Sys2Proof.Machine

/-! ### The fields of a command word -/

theorem commandWord_toNat (ch fn : BitVec 4) (b : Byte) :
    (commandWord ch fn b).toNat = ch.toNat * 4096 + fn.toNat * 256 + b.toNat := by
  rw [commandWord, BitVec.toNat_append, BitVec.toNat_append, ← Nat.shiftLeft_add_eq_or_of_lt fn.isLt,
    ← Nat.shiftLeft_add_eq_or_of_lt b.isLt, Nat.shiftLeft_eq, Nat.shiftLeft_eq]
  omega

theorem fieldCh_toNat (w : Word) : (fieldCh w).toNat = w.toNat / 4096 := by
  simp only [fieldCh, BitVec.extractLsb'_toNat, Nat.shiftRight_eq_div_pow]
  omega

theorem fieldFn_toNat (w : Word) : (fieldFn w).toNat = w.toNat / 256 % 16 := by
  simp only [fieldFn, BitVec.extractLsb'_toNat, Nat.shiftRight_eq_div_pow]

theorem fieldB_toNat (w : Word) : (fieldB w).toNat = w.toNat % 256 := by
  simp only [fieldB, BitVec.extractLsb'_toNat, Nat.shiftRight_eq_div_pow]
  omega

@[simp] theorem fieldCh_commandWord (ch fn : BitVec 4) (b : Byte) : fieldCh (commandWord ch fn b) = ch := by
  apply BitVec.eq_of_toNat_eq
  rw [fieldCh_toNat, commandWord_toNat]
  omega

@[simp] theorem fieldFn_commandWord (ch fn : BitVec 4) (b : Byte) : fieldFn (commandWord ch fn b) = fn := by
  apply BitVec.eq_of_toNat_eq
  rw [fieldFn_toNat, commandWord_toNat]
  omega

@[simp] theorem fieldB_commandWord (ch fn : BitVec 4) (b : Byte) : fieldB (commandWord ch fn b) = b := by
  apply BitVec.eq_of_toNat_eq
  rw [fieldB_toNat, commandWord_toNat]
  omega

/-- A command word is nothing but its three fields (30_encoding.md R53). -/
theorem commandWord_fields (w : Word) : commandWord (fieldCh w) (fieldFn w) (fieldB w) = w := by
  apply BitVec.eq_of_toNat_eq
  rw [commandWord_toNat, fieldCh_toNat, fieldFn_toNat, fieldB_toNat]
  omega

theorem commandWord_inj {ch ch' fn fn' : BitVec 4} {b b' : Byte} :
    commandWord ch fn b = commandWord ch' fn' b' ↔ ch = ch' ∧ fn = fn' ∧ b = b' := by
  refine ⟨fun h => ⟨?_, ?_, ?_⟩, by rintro ⟨rfl, rfl, rfl⟩; rfl⟩
  · simpa using congrArg fieldCh h
  · simpa using congrArg fieldFn h
  · simpa using congrArg fieldB h

/-- The mask 0xFF00 of the opcode map clears the operand. -/
theorem and_FF00 (w : Word) : w &&& 0xFF00 = commandWord (fieldCh w) (fieldFn w) 0 := by
  have hclear : w &&& 0xFF00#16 = (w >>> 8) <<< 8 := by
    ext i hi
    interval_cases i <;> simp
  calc w &&& 0xFF00#16 = (w >>> 8) <<< 8 := hclear
    _ = commandWord (fieldCh w) (fieldFn w) 0 := by
      apply BitVec.eq_of_toNat_eq
      rw [commandWord_toNat, fieldCh_toNat, fieldFn_toNat, BitVec.toNat_shiftLeft, BitVec.toNat_ushiftRight,
        Nat.shiftRight_eq_div_pow, Nat.shiftLeft_eq, show (0 : Byte).toNat = 0 from rfl]
      omega

/-- The mask 0xFFFF of the opcode map keeps the whole word. -/
theorem and_FFFF (w : Word) : w &&& 0xFFFF = w := BitVec.and_allOnes

theorem setWidth_eq_fieldB (w : Word) : w.setWidth 8 = fieldB w := by
  apply BitVec.eq_of_toNat_eq
  rw [fieldB_toNat, BitVec.toNat_setWidth]

/-! ### The decoder -/

/-- The condition of 30_encoding.md R59 on the fields of a command word. -/
def IllegalFields (ch fn b : Nat) : Prop :=
  3 ≤ ch ∨ (ch = 0 ∧ 2 ≤ fn) ∨ (ch = 1 ∧ 4 ≤ fn) ∨ (ch = 2 ∧ 3 ≤ fn) ∨
    (ch ≤ 2 ∧ fn ≠ 1 ∧ ((ch = 0 ∧ fn = 0) ∨ (ch = 1 ∧ fn ≤ 3) ∨ (ch = 2 ∧ fn ≤ 2)) ∧ b ≠ 0)

/-- A decoding answers for a word: an operation is answered for the word the encoder writes for it, and a rejection for
a word that meets the condition of 30_encoding.md R59. -/
def AnswersFor (w : Word) : Decoded → Prop
  | .instr i => encode i = some w
  | .illegal _ => IllegalFields (fieldCh w).toNat (fieldFn w).toNat (fieldB w).toNat

theorem eq_commandWord {w : Word} {c f : BitVec 4} (hc : (fieldCh w).toNat = c.toNat)
    (hf : (fieldFn w).toNat = f.toNat) : w = commandWord c f (fieldB w) := by
  rw [← BitVec.eq_of_toNat_eq hc, ← BitVec.eq_of_toNat_eq hf, commandWord_fields]

/-- The rows of the opcode map without an operand. -/
theorem noOperand_answersFor {w : Word} {c f : BitVec 4} {i : Instr} (hc : (fieldCh w).toNat = c.toNat)
    (hf : (fieldFn w).toNat = f.toNat) (hi : encode i = some (commandWord c f 0))
    (hrow : ∀ b, b ≠ 0 → IllegalFields c.toNat f.toNat b) : AnswersFor w (noOperand (fieldB w) i) := by
  unfold noOperand
  split
  · next hb => exact hi.trans (congrArg some (hb ▸ eq_commandWord hc hf).symm)
  · next hb =>
    have hb' : (fieldB w).toNat ≠ 0 := fun h => hb (BitVec.eq_of_toNat_eq h)
    simpa only [AnswersFor, hc, hf] using hrow _ hb'

/-- Every branch of the decoder answers for its word. -/
theorem decode_answersFor (w : Word) : AnswersFor w (decode w) := by
  unfold decode
  dsimp only
  split
  next hc hf => exact noOperand_answersFor (c := 0) (f := 0) hc hf rfl (by simp [IllegalFields])
  next hc hf => exact congrArg some (eq_commandWord (c := 0) (f := 1) hc hf).symm
  next hc h0 h1 => simp only [AnswersFor, IllegalFields, imp_false] at *; omega
  next hc hf => exact noOperand_answersFor (c := 1) (f := 0) hc hf rfl (by simp [IllegalFields])
  next hc hf => exact congrArg some (eq_commandWord (c := 1) (f := 1) hc hf).symm
  next hc hf => exact noOperand_answersFor (c := 1) (f := 2) hc hf rfl (by simp [IllegalFields])
  next hc hf => exact noOperand_answersFor (c := 1) (f := 3) hc hf rfl (by simp [IllegalFields])
  next hc h0 h1 h2 h3 => simp only [AnswersFor, IllegalFields, imp_false] at *; omega
  next hc hf => exact noOperand_answersFor (c := 2) (f := 0) hc hf rfl (by simp [IllegalFields])
  next hc hf => exact congrArg some (eq_commandWord (c := 2) (f := 1) hc hf).symm
  next hc hf => exact noOperand_answersFor (c := 2) (f := 2) hc hf rfl (by simp [IllegalFields])
  next hc h0 h1 h2 => simp only [AnswersFor, IllegalFields, imp_false] at *; omega
  next => simp only [AnswersFor, IllegalFields, imp_false] at *; omega

theorem decode_encode {i : Instr} {w : Word} (h : encode i = some w) : decode w = .instr i := by
  cases i with
  | rxUnpack | txPack | txFinalize => cases h
  | _ =>
    cases h
    simp only [decode, fieldCh_commandWord, fieldFn_commandWord, fieldB_commandWord]
    rfl

/-- Decoding inverts encoding, in both directions. -/
theorem decode_eq_instr_iff {i : Instr} {w : Word} : decode w = .instr i ↔ encode i = some w := by
  refine ⟨fun h => ?_, decode_encode⟩
  have hw := decode_answersFor w
  rwa [h] at hw

/-- The encoder writes no illegal word. -/
theorem encode_legal {i : Instr} {w : Word} (h : encode i = some w) :
    ¬ IllegalFields (fieldCh w).toNat (fieldFn w).toNat (fieldB w).toNat := by
  cases i with
  | rxUnpack | txPack | txFinalize => cases h
  | _ => cases h; simp [IllegalFields]

theorem decode_illegal_iff {w : Word} :
    (∃ why, decode w = .illegal why) ↔ IllegalFields (fieldCh w).toNat (fieldFn w).toNat (fieldB w).toNat := by
  have hw := decode_answersFor w
  cases hd : decode w with
  | instr i => simpa using encode_legal (decode_eq_instr_iff.mp hd)
  | illegal why => rw [hd] at hw; exact ⟨fun _ => hw, fun _ => ⟨why, rfl⟩⟩

theorem encodeRequest_eq_command {i : Instr} {w : Word} (h : encode i = some w) : encodeRequest i = .command w := by
  cases i with
  | rxUnpack | txPack | txFinalize => cases h
  | _ => cases h; rfl

/-- Settles O1: a primitive goes by its command word, and a macro-operation is its own request. -/
theorem encodedRequestDecodesBack : Obligations.EncodedRequestDecodesBack := by
  intro i
  refine ⟨?_, fun w hw => ⟨encodeRequest_eq_command hw, decode_encode hw⟩⟩
  cases he : encode i with
  | some w => rw [encodeRequest_eq_command he]; exact decode_encode he
  | none =>
    cases i with
    | rxUnpack | txPack | txFinalize => rfl
    | _ => cases he

/-! ### The opcode map -/

/-- A row with mask 0xFFFF selects the one word it is. -/
theorem selects_exact_iff {w p : Word} {i : Instr} (hi : encode i = some p) :
    w &&& 0xFFFF = p ↔ decode w = .instr i := by
  rw [and_FFFF, decode_eq_instr_iff, hi, Option.some.injEq, eq_comm]

/-- A row with mask 0xFF00 selects the words with its channel and function. -/
theorem selects_operand_iff {w : Word} {c f : BitVec 4} {i : Instr}
    (hi : encode i = some (commandWord c f (w.setWidth 8))) :
    w &&& 0xFF00 = commandWord c f 0 ↔ decode w = .instr i := by
  rw [and_FF00, decode_eq_instr_iff, hi, Option.some.injEq, setWidth_eq_fieldB]
  conv_rhs => rhs; rw [← commandWord_fields w]
  simp only [commandWord_inj, and_true, eq_comm]

/-- Settles O2: the rows by their mask. -/
theorem opcodeMapSelectsOperation : Obligations.OpcodeMapSelectsOperation := by
  intro w
  exact ⟨selects_exact_iff rfl, selects_operand_iff (c := 0) (f := 1) rfl,
    selects_exact_iff rfl, selects_operand_iff (c := 1) (f := 1) rfl,
    selects_exact_iff rfl, selects_exact_iff rfl,
    selects_exact_iff rfl, selects_operand_iff (c := 2) (f := 1) rfl,
    selects_exact_iff rfl⟩

/-! ### Illegal words -/

theorem toNat_ushiftRight_12 (w : Word) : (w >>> 12).toNat = (fieldCh w).toNat := by
  rw [fieldCh_toNat, BitVec.toNat_ushiftRight, Nat.shiftRight_eq_div_pow]

theorem toNat_ushiftRight_8_and_F (w : Word) : ((w >>> 8) &&& 0xF).toNat = (fieldFn w).toNat := by
  rw [fieldFn_toNat, BitVec.toNat_and, BitVec.toNat_ushiftRight, Nat.shiftRight_eq_div_pow]
  exact Nat.and_two_pow_sub_one_eq_mod _ 4

theorem toNat_and_FF (w : Word) : (w &&& 0xFF).toNat = (fieldB w).toNat := by
  rw [fieldB_toNat, BitVec.toNat_and]
  exact Nat.and_two_pow_sub_one_eq_mod _ 8

theorem step_of_illegal {s : State} {w : Word} {rest : List HostAction} {why : Illegal}
    (hs : s.issued = .issue (.command w) :: rest) (hd : decode w = .illegal why) :
    step s = .refused (.illegalCommand why) := by
  simp only [step, hs, decodeRequest, hd]

/-- Settles O3. -/
theorem illegalWordsAreRefused : Obligations.IllegalWordsAreRefused := by
  intro w
  dsimp only
  rw [toNat_ushiftRight_12, toNat_ushiftRight_8_and_F, toNat_and_FF]
  refine ⟨decode_illegal_iff.symm, fun hill s rest hs => ?_⟩
  obtain ⟨why, hd⟩ := decode_illegal_iff.mpr hill
  exact ⟨why, step_of_illegal hs hd⟩

/-- Settles O4: each word is the one the encoder writes for the operation. -/
theorem sampleCommandWordsDecode : Obligations.SampleCommandWordsDecode :=
  ⟨decode_encode rfl, decode_encode rfl, decode_encode rfl, decode_encode rfl, decode_encode rfl,
    decode_encode rfl, decode_encode rfl, decode_encode rfl, decode_encode rfl⟩

end Sys2Proof.Machine

/-! Assembler lines (30_encoding.md R61; log entry 19). -/

namespace Sys2Proof.Machine

/-! ### Hexadecimal digits -/

/-- The digits that the model writes are read back, and none is a blank or starts a comment. -/
theorem hexDigit_spec :
    ∀ d < 16, hexValue (hexDigit d) = some d ∧ isBlank (hexDigit d) = false ∧ hexDigit d ≠ ';' := by
  decide

theorem readOperand_hexOperand (b : Byte) : readOperand (hexOperand b) = some b := by
  have hb := b.isLt
  obtain ⟨hhigh, -⟩ := hexDigit_spec (b.toNat / 16) (by omega)
  obtain ⟨hlow, -⟩ := hexDigit_spec (b.toNat % 16) (by omega)
  simp only [hexOperand, hexByte, readOperand, hhigh, hlow, Nat.div_add_mod, BitVec.ofNat_toNat, BitVec.setWidth_eq]

/-! ### Tokens and lines -/

/-- A mnemonic or an operand: characters of which none is a blank or starts a comment. -/
def Token (l : List Char) : Prop := ∀ c ∈ l, isBlank c = false ∧ c ≠ ';'

theorem hexOperand_token (b : Byte) : Token (hexOperand b) := by
  have hb := b.isLt
  obtain ⟨-, hhigh⟩ := hexDigit_spec (b.toNat / 16) (by omega)
  obtain ⟨-, hlow⟩ := hexDigit_spec (b.toNat % 16) (by omega)
  intro c hc
  simp only [hexOperand, hexByte, List.mem_cons, List.not_mem_nil, or_false] at hc
  obtain rfl | rfl | rfl | rfl := hc
  · decide
  · decide
  · exact hhigh
  · exact hlow

theorem token_of_all {l : List Char} (h : (l.all fun c => !isBlank c && c != ';') = true) : Token l := by
  intro c hc
  simpa using List.all_eq_true.mp h c hc

theorem mnemonic_token (i : Instr) : Token i.mnemonic.toList := by
  refine token_of_all ?_
  cases i <;> simp only [Instr.mnemonic] <;> decide

theorem mnemonic_ne_nil (i : Instr) : i.mnemonic.toList ≠ [] := by
  cases i <;> simp [Instr.mnemonic]

theorem hexOperand_ne_nil (b : Byte) : hexOperand b ≠ [] := List.cons_ne_nil _ _

/-- The text of a line: it has no comment, and no blank at its two ends. -/
structure Trimmed (l : List Char) : Prop where
  no_comment : ∀ c ∈ l, c ≠ ';'
  no_blank_first : ∀ c ∈ l.head?, isBlank c = false
  no_blank_last : ∀ c ∈ l.getLast?, isBlank c = false

theorem Token.trimmed {l : List Char} (h : Token l) : Trimmed l where
  no_comment c hc := (h c hc).2
  no_blank_first c hc := (h c (List.mem_of_mem_head? hc)).1
  no_blank_last c hc := (h c (List.mem_of_mem_getLast? hc)).1

theorem trimmed_two_tokens {m o : List Char} (hm : Token m) (ho : Token o) (hne : m ≠ []) (hne' : o ≠ []) :
    Trimmed (m ++ ' ' :: o) where
  no_comment c hc := by
    obtain hc | rfl | hc := by simpa using hc
    · exact (hm c hc).2
    · decide
    · exact (ho c hc).2
  no_blank_first c hc := by
    rw [List.head?_append_of_ne_nil _ hne] at hc
    exact hm.trimmed.no_blank_first c hc
  no_blank_last c hc := by
    rw [List.getLast?_append_of_ne_nil _ (by simp), List.getLast?_cons_of_ne_nil hne'] at hc
    exact ho.trimmed.no_blank_last c hc

theorem dropWhile_isBlank_of_first {l : List Char} (h : ∀ c ∈ l.head?, isBlank c = false) :
    l.dropWhile isBlank = l := by
  cases l with
  | nil => rfl
  | cons c cs => exact List.dropWhile_cons_of_neg (by simp [h c rfl])

/-- The body of a line is its text, without the blanks `t` between it and the comment. -/
theorem Trimmed.lineBody_eq {line l t : List Char} (h : Trimmed l) (ht : ∀ c ∈ t, isBlank c = true)
    (hline : line.takeWhile (fun c => c != ';') = l ++ t) : lineBody line = l := by
  rw [lineBody, hline]
  cases l with
  | nil => rw [List.nil_append, List.dropWhile_eq_nil_iff.mpr ht]; rfl
  | cons c cs =>
    have hlast : ∀ c' ∈ (c :: cs).reverse.head?, isBlank c' = false := by
      rw [List.head?_reverse]; exact h.no_blank_last
    rw [dropWhile_isBlank_of_first (l := c :: cs ++ t) h.no_blank_first, List.reverse_append,
      List.dropWhile_append_of_pos (by simpa using ht), dropWhile_isBlank_of_first hlast, List.reverse_reverse]

/-- A line that is a text is read as the text, with or without a comment after it (30_encoding.md R61). -/
theorem readLine_of_trimmed {l : List Char} (h : Trimmed l) (comment : List Char) :
    readLine l = readPrimitive (lineMnemonic l) (lineOperand l) ∧
      readLine (l ++ ' ' :: ';' :: comment) = readPrimitive (lineMnemonic l) (lineOperand l) := by
  have htext : ∀ c ∈ l, (c != ';') = true := fun c hc => by simpa using h.no_comment c hc
  have hplain : lineBody l = l := h.lineBody_eq (t := []) (by simp) (by simpa using h.no_comment)
  have hcomment : lineBody (l ++ ' ' :: ';' :: comment) = l :=
    h.lineBody_eq (t := [' ']) (by simp [isBlank]) (by rw [List.takeWhile_append_of_pos htext]; simp)
  simp only [readLine, hplain, hcomment, and_self]

/-! ### Reading a line -/

theorem Token.not_isBlank {m : List Char} (hm : Token m) : ∀ c ∈ m, (!isBlank c) = true :=
  fun c hc => by simp [(hm c hc).1]

/-- A line that is a mnemonic alone. -/
theorem readLine_mnemonic {m : List Char} (hm : Token m) (comment : List Char) :
    readLine m = readPrimitive m [] ∧ readLine (m ++ ' ' :: ';' :: comment) = readPrimitive m [] := by
  have hmnemonic : lineMnemonic m = m := List.takeWhile_eq_self_iff.mpr hm.not_isBlank
  have hoperand : lineOperand m = [] := by rw [lineOperand, List.dropWhile_eq_nil_iff.mpr hm.not_isBlank]; rfl
  simpa only [hmnemonic, hoperand] using readLine_of_trimmed hm.trimmed comment

/-- A line that is a mnemonic, one blank and an operand. -/
theorem readLine_operand {m o : List Char} (hm : Token m) (ho : Token o) (hne : m ≠ []) (hne' : o ≠ [])
    (comment : List Char) :
    readLine (m ++ ' ' :: o) = readPrimitive m o ∧
      readLine (m ++ ' ' :: o ++ ' ' :: ';' :: comment) = readPrimitive m o := by
  have hblank : isBlank ' ' = true := rfl
  have hmnemonic : lineMnemonic (m ++ ' ' :: o) = m := by
    rw [lineMnemonic, List.takeWhile_append_of_pos hm.not_isBlank, List.takeWhile_cons_of_neg (by simp [hblank]),
      List.append_nil]
  have hoperand : lineOperand (m ++ ' ' :: o) = o := by
    rw [lineOperand, List.dropWhile_append_of_pos hm.not_isBlank, List.dropWhile_cons_of_neg (by simp [hblank]),
      List.dropWhile_cons_of_pos hblank, dropWhile_isBlank_of_first ho.trimmed.no_blank_first]
  simpa only [hmnemonic, hoperand] using readLine_of_trimmed (trimmed_two_tokens hm ho hne hne') comment

theorem readPrimitive_hexOperand (m : List Char) (b : Byte) :
    readPrimitive m (hexOperand b) =
      if m = "CRC.UPDATE".toList then some (.crcUpdate b)
      else if m = "TX.BYTE".toList then some (.txByte b)
      else if m = "RX.BYTE".toList then some (.rxByte b)
      else none := by
  rw [readPrimitive, if_neg (hexOperand_ne_nil b), readOperand_hexOperand]

/-- Settles O5: the primitives with an operand by their two tokens, the others by their one. -/
theorem assemblerLineReadsBack : Obligations.AssemblerLineReadsBack := by
  intro i comment hi
  have hmnemonic := readLine_mnemonic (mnemonic_token i) comment
  have hoperand b := readLine_operand (mnemonic_token i) (hexOperand_token b) (mnemonic_ne_nil i)
    (hexOperand_ne_nil b) comment
  cases i with
  | rxUnpack | txPack | txFinalize => cases hi
  | crcUpdate b | txByte b | rxByte b =>
    have hb := hoperand b
    rw [readPrimitive_hexOperand] at hb
    simpa [asmInstr, Instr.mnemonic] using hb
  | _ => exact hmnemonic

end Sys2Proof.Machine

/-! Operands, codes and responses (30_encoding.md R47, R55 to R58, R63). -/

namespace Sys2Proof.Machine

/-! ### Codes and reserved bytes -/

/-- Settles O17. -/
theorem stateEventAndReturnCodes : Obligations.StateEventAndReturnCodes := by
  unfold Obligations.StateEventAndReturnCodes
  decide

/-- Settles O48, by the two forms of `tx_esc`. -/
theorem escapeHidesReservedBytes : Obligations.EscapeHidesReservedBytes := by
  refine ⟨⟨rfl, rfl, rfl⟩, fun b => ?_⟩
  change (b = FLAG ∨ b = ESC → txEsc b = [ESC, b ^^^ MASK]) ∧ (b ≠ FLAG → b ≠ ESC → txEsc b = [b]) ∧
    FLAG ∉ txEsc b ∧ ESC ∉ (txEsc b).drop 1 ∧ ((txEsc b)[0]? = some ESC → (txEsc b).length = 2)
  obtain ⟨hflag, hesc, hplain⟩ | ⟨hres, hpair, hflag, hesc⟩ := txEsc_cases b
  · simp [hplain, hflag, hesc, Ne.symm hflag]
  · simpa [hpair, Ne.symm hflag, Ne.symm hesc] using or_iff_not_imp_left.mp hres

/-! ### Operands out of range -/

theorem operandsOk_eq_true {cfg : Config} {cap : Nat} {src : List Byte} :
    operandsOk cfg cap src = true ↔ cap ≤ cfg.maxCount ∧ src.length ≤ cfg.maxCount := by
  simp [operandsOk, capOk, srcOk]

/-- Settles O16: the check of the operands comes before anything else. -/
theorem macroOperandsOutOfRangeAreRefused : Obligations.MacroOperandsOutOfRangeAreRefused := by
  intro s cap src
  refine ⟨fun hout => ?_, fun hout => ?_⟩
  · have hbad : ¬ operandsOk s.cfg cap src = true := by
      rw [operandsOk_eq_true, Config.maxCount]; omega
    exact ⟨if_neg hbad, if_neg hbad⟩
  · have hbad : ¬ operandsOk s.cfg cap [] = true := by
      rw [operandsOk_eq_true, Config.maxCount]; omega
    exact if_neg hbad

/-! ### Responses -/

/-- The return value of a response. -/
def Response.ret : Response → Int
  | .prim resp _ _ => resp
  | .counted ret _ => ret
  | .final ret => ret

/-- The number of source bytes that a response reports as consumed. -/
def Response.consumed : Response → Nat
  | .prim _ _ _ => 0
  | .counted _ consumed => consumed
  | .final _ => 0

/-- A return value is one of the error codes, or a count or a datum (30_encoding.md R57). -/
def IsReturnValue (cfg : Config) (v : Int) : Prop :=
  (v = cfg.errUnspec ∨ v = cfg.errCrc ∨ v = cfg.errFrame) ∨ (0 ≤ v ∧ v < 2 ^ (cfg.retW - 1))

/-- What `Config.wf` says, of which the distinctness of the codes is not needed for the fields. -/
theorem Config.wf_codes {cfg : Config} (h : cfg.wf = true) :
    17 ≤ cfg.retW ∧ ∀ v, v = cfg.errUnspec ∨ v = cfg.errCrc ∨ v = cfg.errFrame →
      -(2 ^ (cfg.retW - 1) : Int) ≤ v ∧ v < 0 := by
  simp only [Config.wf, Bool.and_eq_true, decide_eq_true_eq] at h
  obtain ⟨⟨⟨⟨⟨⟨⟨⟨⟨hw, hu⟩, hu'⟩, hc⟩, hc'⟩, hf⟩, hf'⟩, -⟩, -⟩, -⟩ := h
  refine ⟨hw, ?_⟩
  rintro v (rfl | rfl | rfl)
  · exact ⟨hu, hu'⟩
  · exact ⟨hc, hc'⟩
  · exact ⟨hf, hf'⟩

/-- `RET_W` of 17 or more leaves room for every value of 16 bits. -/
theorem Config.wf_datum {cfg : Config} (h : cfg.wf = true) : 2 ^ 16 ≤ 2 ^ (cfg.retW - 1) :=
  Nat.pow_le_pow_right (by decide) (by have := (Config.wf_codes h).1; omega)

theorem isReturnValue_nat {cfg : Config} {n : Nat} (h : n < 2 ^ (cfg.retW - 1)) : IsReturnValue cfg n :=
  .inr ⟨Int.natCast_nonneg n, by exact_mod_cast h⟩

theorem isReturnValue_returnValue {cfg : Config} {ev : Event} {n : Nat} (h : n < 2 ^ (cfg.retW - 1)) :
    IsReturnValue cfg (returnValue cfg ev n) := by
  cases ev with
  | none => exact isReturnValue_nat h
  | frameOk => exact isReturnValue_nat h
  | errCrc => exact .inl (.inr (.inl rfl))
  | errFrame => exact .inl (.inr (.inr rfl))

theorem lt_of_le_maxCount {cfg : Config} {n : Nat} (h : n ≤ cfg.maxCount) : n < 2 ^ (cfg.retW - 1) := by
  have := Nat.two_pow_pos (cfg.retW - 1)
  unfold Config.maxCount at h
  omega

/-- However `RX.UNPACK` ends, it answers a return value and consumes no more than the bytes it stepped. -/
theorem UnpackEnding.isReturnValue {cfg : Config} {cap : Nat} {src : List Byte} {i w k : Nat} {f : Fed} {ret : Int}
    {consumed : Nat} (h : UnpackEnding cfg cap src i w k f ret consumed)
    (hroom : w + f.out.length < 2 ^ (cfg.retW - 1)) : IsReturnValue cfg ret ∧ consumed ≤ i + k := by
  cases h with
  | sourceExhausted | frameGood | destinationExhausted => exact ⟨isReturnValue_nat hroom, by omega⟩
  | crcError => exact ⟨.inl (.inr (.inl rfl)), by omega⟩
  | frameError => exact ⟨.inl (.inr (.inr rfl)), Nat.le_refl _⟩

/-- The trailer with the opening flag before it has at most five bytes: the flag is due only where the CRC is still the
initial one, which has no byte to escape (42_tx_framer.md R114). -/
theorem finalizeNeed_le_five {cfg : Config} {x : TxCtx} (h : TxInv cfg x) : finalizeNeed x ≤ 5 := by
  obtain ⟨p, hlen, hcrc⟩ := h.crc_of_packed
  have hlow := (txEsc_length_bounds (crcLow x.crc)).2
  have hhigh := (txEsc_length_bounds (crcHigh x.crc)).2
  unfold finalizeNeed
  split
  · next hidle =>
    obtain rfl : p = [] := List.length_eq_zero_iff.mp (hlen.trans (h.idle_is_empty hidle))
    rw [hcrc]
    decide
  · omega

/-- What 30_encoding.md R57, R58 and R63 ask of a response, with the return value by its kind. -/
structure Response.Fields (cfg : Config) (r : Response) : Prop where
  ret : IsReturnValue cfg r.ret
  out : r.out.length ≤ 5
  consumed : r.consumed < 2 ^ cfg.retW

/-- A primitive has no source and consumes nothing. -/
theorem fields_prim {cfg : Config} {v : Int} {ev : Event} {out : List Byte} (hv : IsReturnValue cfg v)
    (hout : out.length ≤ 5) : (Response.prim v ev out).Fields cfg :=
  ⟨hv, hout, Nat.two_pow_pos _⟩

theorem fields_txResponse {cfg : Config} {out : List Byte} (hcfg : cfg.wf = true) (hout : out.length ≤ 5) :
    (txResponse out).Fields cfg :=
  fields_prim (isReturnValue_nat (by have := Config.wf_datum hcfg; omega)) hout

theorem fields_counted {cfg : Config} {v : Int} {consumed : Nat} (hv : IsReturnValue cfg v)
    (hc : consumed ≤ cfg.maxCount) : (Response.counted v consumed).Fields cfg :=
  ⟨hv, Nat.zero_le _, (lt_of_le_maxCount hc).trans_le (Nat.pow_le_pow_right (by decide) (Nat.sub_le _ _))⟩

theorem fields_final {cfg : Config} {v : Int} (hv : IsReturnValue cfg v) : (Response.final v).Fields cfg :=
  ⟨hv, Nat.zero_le _, Nat.two_pow_pos _⟩

/-- Every operation that answers delivers a response that fits its fields. -/
theorem exec_fields {i : Instr} {s t : State} (hcfg : s.cfg.wf = true) (hs : s.Inv) (h : exec i s = .next t) :
    ∃ r, t.rsp = some r ∧ r.Fields s.cfg := by
  have hdatum := Config.wf_datum hcfg
  cases i with
  | crcInit =>
    cases h
    exact ⟨_, rfl, fields_prim (isReturnValue_nat (crcInit.isLt.trans_le hdatum)) (Nat.zero_le _)⟩
  | crcUpdate b =>
    cases h
    exact ⟨_, rfl, fields_prim (isReturnValue_nat ((crcUpdate s.crc.acc b).isLt.trans_le hdatum)) (Nat.zero_le _)⟩
  | rxInit =>
    cases h
    exact ⟨_, rfl, fields_prim (isReturnValue_nat (n := 0) (by omega)) (Nat.zero_le _)⟩
  | rxByte b =>
    obtain ⟨rfl, -⟩ := execRxByte_next h
    have hout : (rxStep s.rx b).out.length ≤ 1 := by rw [rxStep_out]; split <;> simp
    exact ⟨_, rfl, fields_prim (isReturnValue_returnValue (by omega)) (by omega)⟩
  | rxDone =>
    cases h
    refine ⟨_, rfl, fields_prim ?_ (Nat.zero_le _)⟩
    unfold doneValue
    split
    · exact isReturnValue_nat (n := 1) (by omega)
    · exact isReturnValue_nat (n := 0) (by omega)
  | rxUnpack cap src =>
    obtain ⟨hcap, hsrc, k, ret, consumed, hk, rfl, hroom, hend⟩ := execRxUnpack_next h
    have hcap' : cap ≤ s.cfg.maxCount := of_decide_eq_true hcap
    have hsrc' : src.length ≤ s.cfg.maxCount := of_decide_eq_true hsrc
    obtain ⟨hret, hcons⟩ := hend.isReturnValue (lt_of_le_maxCount (by omega))
    exact ⟨_, rfl, fields_counted hret (by omega)⟩
  | txInit =>
    cases h
    exact ⟨_, rfl, fields_txResponse hcfg (Nat.zero_le _)⟩
  | txOpen =>
    cases h
    refine ⟨_, rfl, fields_txResponse hcfg ?_⟩
    rw [txOpenOut_length]; split <;> decide
  | txByte b =>
    obtain ⟨rfl, -⟩ := execTxByte_next h
    refine ⟨_, rfl, fields_txResponse hcfg ?_⟩
    have hesc := (txEsc_length_bounds b).2
    rw [List.length_append, txOpenOut_length]
    split <;> omega
  | txFinal =>
    cases h
    exact ⟨_, rfl, fields_txResponse hcfg ((txFinalOut_length s.tx).trans_le (finalizeNeed_le_five hs.tx_inv))⟩
  | txPack cap src =>
    obtain ⟨hcap, hsrc, hans⟩ := execTxPack_next h
    have hcap' : cap ≤ s.cfg.maxCount := of_decide_eq_true hcap
    have hsrc' : src.length ≤ s.cfg.maxCount := of_decide_eq_true hsrc
    obtain ⟨-, rfl⟩ | ⟨k, hk, rfl, hroom, -⟩ := hans
    · exact ⟨_, rfl, fields_counted (isReturnValue_nat (n := 0) (by omega)) (Nat.zero_le _)⟩
    · exact ⟨_, rfl, fields_counted (isReturnValue_nat (lt_of_le_maxCount (by omega))) (by omega)⟩
  | txFinalize cap =>
    obtain ⟨hcap, ⟨-, rfl⟩ | ⟨-, rfl⟩⟩ := execTxFinalize_next h
    · exact ⟨_, rfl, fields_final (.inl (.inl rfl))⟩
    · have hneed := finalizeNeed_le_five hs.tx_inv
      exact ⟨_, rfl, fields_final (isReturnValue_nat (by omega))⟩

theorem IsReturnValue.bounds {cfg : Config} {v : Int} (hcfg : cfg.wf = true) (h : IsReturnValue cfg v) :
    -(2 ^ (cfg.retW - 1) : Int) ≤ v ∧ v < 2 ^ (cfg.retW - 1) := by
  have hpos : (0 : Int) < 2 ^ (cfg.retW - 1) := by positivity
  obtain hcode | ⟨hnonneg, hlt⟩ := h
  · obtain ⟨hge, hneg⟩ := (Config.wf_codes hcfg).2 v hcode
    exact ⟨hge, hneg.trans hpos⟩
  · exact ⟨by omega, hlt⟩

theorem IsReturnValue.code_of_neg {cfg : Config} {v : Int} (h : IsReturnValue cfg v) (hneg : v < 0) :
    v = cfg.errUnspec ∨ v = cfg.errCrc ∨ v = cfg.errFrame :=
  h.resolve_right fun hnat => absurd hnat.1 (by omega)

theorem Response.Fields.fits {cfg : Config} {r : Response} (hcfg : cfg.wf = true) (h : r.Fields cfg) : r.fits cfg := by
  obtain ⟨hlow, hhigh⟩ := h.ret.bounds hcfg
  cases r with
  | prim v ev out => exact ⟨hlow, hhigh, h.out⟩
  | counted v consumed => exact ⟨hlow, hhigh, h.consumed⟩
  | final v => exact ⟨hlow, hhigh⟩

/-- Settles O15. -/
theorem responsesFitTheirFields : Obligations.ResponsesFitTheirFields := by
  intro i s t hcfg hs h
  obtain ⟨r, hr, hfields⟩ := exec_fields hcfg hs h
  refine ⟨r, hr, hfields.fits hcfg, fun v hv hneg => IsReturnValue.code_of_neg ?_ hneg⟩
  obtain rfl | ⟨c, rfl⟩ | ⟨ev, out, rfl⟩ := hv <;> exact hfields.ret

end Sys2Proof.Machine

/-! The deframer on the wire grammar of 30_encoding.md R51: what the receive context holds of the data bytes of a frame,
that every unit adds its byte to them, and what the closing flag makes of them. -/

namespace Sys2Proof.Machine

/-! ### The data bytes of an open frame -/

/-- All data bytes but the last two, which the deframer holds back (41_rx_deframer.md R81). -/
def payloadOf (d : List Byte) : List Byte := d.take (d.length - 2)

theorem payloadOf_of_short {d : List Byte} (h : d.length ≤ 2) : payloadOf d = [] := by
  rw [payloadOf, Nat.sub_eq_zero_of_le h, List.take_zero]

/-- From the third data byte on, each one sets free the byte two before it. -/
theorem payloadOf_snoc {d : List Byte} {o : Byte} (b : Byte) (h : 2 ≤ d.length) (ho : d[d.length - 2]? = some o) :
    payloadOf (d ++ [b]) = payloadOf d ++ [o] := by
  rw [payloadOf, payloadOf, List.length_append, List.length_singleton, List.take_append_of_le_length (by omega),
    show d.length + 1 - 2 = d.length - 2 + 1 by omega, List.take_add_one, ho, Option.toList_some]

/-- The receive context of a frame whose data bytes so far are `d`: their count, the CRC of those delivered, and the
last two of them in the lookback slots (10_state.md R16 to R18). -/
structure HoldsData (x : RxCtx) (d : List Byte) : Prop where
  cnt_eq : x.cnt = d.length
  crc_eq : x.crc = crcOf (payloadOf d)
  slot_eq : ∀ j b, d[j]? = some b → d.length ≤ j + 2 → lbGet x j = b

theorem holdsData_reset : HoldsData RxCtx.reset [] where
  cnt_eq := rfl
  crc_eq := rfl
  slot_eq j b h := by simp at h

/-- The state register is no part of the data. -/
theorem HoldsData.set_st {x : RxCtx} {d : List Byte} (h : HoldsData x d) (st : CtxState) :
    HoldsData { x with st := st } d :=
  ⟨h.cnt_eq, h.crc_eq, h.slot_eq⟩

/-- Slots are addressed modulo 2 (10_state.md R18). -/
theorem lbGet_congr {x : RxCtx} {j k : Nat} (h : j % 2 = k % 2) : lbGet x j = lbGet x k := by
  simp only [lbGet, LB_N, h]

/-- The slot that the next data byte takes holds the older of the last two. -/
theorem HoldsData.older {x : RxCtx} {d : List Byte} (h : HoldsData x d) (h2 : 2 ≤ d.length) :
    d[d.length - 2]? = some (lbGet x x.cnt) := by
  obtain ⟨o, ho⟩ : ∃ o, d[d.length - 2]? = some o := ⟨_, List.getElem?_eq_getElem (by omega)⟩
  rw [ho, ← h.slot_eq _ o ho (by omega), h.cnt_eq]
  exact congrArg some (lbGet_congr (by omega))

/-- The other slot holds the newer of the last two. -/
theorem HoldsData.newer {x : RxCtx} {d : List Byte} (h : HoldsData x d) (h2 : 2 ≤ d.length) :
    d[d.length - 1]? = some (lbGet x (x.cnt + 1)) := by
  obtain ⟨o, ho⟩ : ∃ o, d[d.length - 1]? = some o := ⟨_, List.getElem?_eq_getElem (by omega)⟩
  rw [ho, ← h.slot_eq _ o ho (by omega), h.cnt_eq]
  exact congrArg some (lbGet_congr (by omega))

/-- What an accept delivers continues the payload. -/
theorem rxAccept_payloadOf {x : RxCtx} {d : List Byte} {b : Byte} (h : HoldsData x d) :
    payloadOf d ++ (rxAccept x b).out = payloadOf (d ++ [b]) := by
  rw [rxAccept_out, h.cnt_eq]
  split
  · next h2 => rw [payloadOf_snoc b h2 (h.older h2), h.cnt_eq]
  · next h2 =>
    rw [payloadOf_of_short (by omega), payloadOf_of_short (by simp; omega), List.append_nil]

/-- An accept adds its byte to the data of the frame. -/
theorem rxAccept_holdsData {x : RxCtx} {d : List Byte} (b : Byte) (h : HoldsData x d) :
    HoldsData (rxAccept x b).ctx (d ++ [b]) where
  cnt_eq := by rw [rxAccept_cnt, h.cnt_eq, List.length_append, List.length_singleton]
  crc_eq := by rw [rxAccept_crc, h.crc_eq, ← crcOf_append, rxAccept_payloadOf h]
  slot_eq j c hj hlast := by
    rw [rxAccept_lbGet, h.cnt_eq]
    simp only [List.length_append, List.length_singleton] at hlast
    by_cases hjd : j < d.length
    · rw [List.getElem?_append_left hjd] at hj
      rw [lbGet_lbSet_other x d.length j b (by omega)]
      exact h.slot_eq j c hj (by omega)
    · have hje : j = d.length := by
        have := (List.getElem?_eq_some_iff.mp hj).1
        simp only [List.length_append, List.length_singleton] at this
        omega
      subst hje
      rw [lbGet_lbSet_same x d.length d.length b rfl]
      simpa using hj

/-! ### Units -/

/-- The states of an open frame between two units. -/
def betweenUnits (x : RxCtx) : Prop := x.st = .start ∨ x.st = .data

theorem betweenUnits_rxAccept (x : RxCtx) (d : Byte) : betweenUnits (rxAccept x d).ctx := .inr (rxAccept_st x d)

theorem rxAccept_set_st (x : RxCtx) (d : Byte) (st : CtxState) : rxAccept { x with st := st } d = rxAccept x d := by
  unfold rxAccept lbSet
  dsimp only
  split <;> split <;> rfl

theorem rxStep_plain {x : RxCtx} {b : Byte} (hx : betweenUnits x) (h1 : b ≠ FLAG) (h2 : b ≠ ESC) :
    rxStep x b = rxAccept x b := by
  rcases hx with hst | hst <;> simp only [rxStep, hst, if_neg h1, if_neg h2]

theorem rxStep_esc {x : RxCtx} (hx : betweenUnits x) :
    rxStep x ESC = { ctx := { x with st := .escaped }, out := [], ev := .none } := by
  rcases hx with hst | hst <;> simp [rxStep, hst]

theorem rxStep_escaped {x : RxCtx} {b : Byte} (h1 : b ≠ FLAG) (h2 : b ≠ ESC) :
    rxStep { x with st := .escaped } b = rxAccept x (b ^^^ MASK) := by
  simp only [rxStep, h1, h2, or_self, if_false, rxAccept_set_st]

/-- A legal unit, plain or escaped, is accepted as its data byte, without an event (41_rx_deframer.md R83 to R86). -/
theorem rxFeed_unit {x : RxCtx} {u : WireUnit} (hx : betweenUnits x) (hu : u.legal = true) :
    rxFeed x u.bytes =
      { ctx := (rxAccept x u.byte).ctx
        out := (rxAccept x u.byte).out
        evs := List.replicate u.bytes.length .none } := by
  unfold WireUnit.legal at hu
  unfold WireUnit.bytes
  split at hu
  · next hesc =>
    simp only [Bool.and_eq_true, decide_eq_true_eq] at hu
    obtain ⟨h1, h2⟩ := hu
    have hback : u.byte ^^^ MASK ^^^ MASK = u.byte := by rw [BitVec.xor_assoc, BitVec.xor_self, BitVec.xor_zero]
    simp [hesc, rxStep_esc hx, rxStep_escaped h1 h2, hback, List.replicate]
  · next hplain =>
    simp only [Bool.and_eq_true, decide_eq_true_eq] at hu
    obtain ⟨h1, h2⟩ := hu
    simp [hplain, rxStep_plain hx h1 h2]

/-- Units in a row: their bytes join the data of the frame, and what is delivered continues the payload. -/
theorem rxFeed_units {x : RxCtx} {d : List Byte} {units : List WireUnit} (hx : betweenUnits x) (hd : HoldsData x d)
    (hu : ∀ u ∈ units, u.legal = true) :
    ∃ y out, HoldsData y (d ++ units.map WireUnit.byte) ∧ (units ≠ [] → y.st = .data) ∧
      payloadOf d ++ out = payloadOf (d ++ units.map WireUnit.byte) ∧
      rxFeed x (units.flatMap WireUnit.bytes) =
        { ctx := y, out := out, evs := List.replicate (units.flatMap WireUnit.bytes).length .none } := by
  induction units generalizing x d with
  | nil => exact ⟨x, [], by simpa using hd, by simp, by simp, rfl⟩
  | cons u units ih =>
    obtain ⟨hu, hrest⟩ := List.forall_mem_cons.mp hu
    obtain ⟨y, out, hy, hst, hout, hfeed⟩ :=
      ih (betweenUnits_rxAccept x u.byte) (rxAccept_holdsData u.byte hd) hrest
    refine ⟨y, (rxAccept x u.byte).out ++ out, by simpa using hy, fun _ => ?_, ?_, ?_⟩
    · cases units with
      | nil =>
        have hy' : (rxAccept x u.byte).ctx = y := congrArg Fed.ctx hfeed
        rw [← hy', rxAccept_st]
      | cons v vs => exact hst (by simp)
    · rw [← List.append_assoc, rxAccept_payloadOf hd, hout, List.map_cons, List.append_assoc, List.singleton_append]
    · rw [List.flatMap_cons, rxFeed_append, rxFeed_unit hx hu, hfeed, List.length_append, List.replicate_add]

/-! ### Garbage and opening flags -/

/-- In `IDLE` everything but a flag is dropped (41_rx_deframer.md R82). -/
theorem rxFeed_garbage {garbage : List Byte} (h : FLAG ∉ garbage) :
    rxFeed RxCtx.reset garbage = { ctx := RxCtx.reset, out := [], evs := List.replicate garbage.length .none } := by
  induction garbage with
  | nil => rfl
  | cons b bs ih =>
    obtain ⟨hb, hbs⟩ := not_or.mp (mt List.mem_cons.mpr h)
    have hstep : rxStep RxCtx.reset b = { ctx := RxCtx.reset, out := [], ev := .none } := by
      simp [rxStep, Ne.symm hb]
    rw [rxFeed_cons, hstep, ih hbs]
    rfl

/-- The context in which the first unit of a frame arrives. -/
def rxStarted : RxCtx := { RxCtx.reset with st := .start }

/-- Every further opening flag leaves `START` as it is (41_rx_deframer.md R83). -/
theorem rxFeed_more_flags (n : Nat) :
    rxFeed rxStarted (List.replicate n FLAG) = { ctx := rxStarted, out := [], evs := List.replicate n .none } := by
  induction n with
  | zero => rfl
  | succ n ih =>
    have hstep : rxStep rxStarted FLAG = { ctx := rxStarted, out := [], ev := .none } := rfl
    rw [List.replicate_succ, rxFeed_cons, hstep, ih]
    rfl

/-- Everything before the first unit. -/
theorem rxFeed_opening {garbage : List Byte} (h : FLAG ∉ garbage) (n : Nat) :
    rxFeed RxCtx.reset (garbage ++ FLAG :: List.replicate n FLAG) =
      { ctx := rxStarted, out := [],
        evs := List.replicate (garbage ++ FLAG :: List.replicate n FLAG).length .none } := by
  have hstep : rxStep RxCtx.reset FLAG = { ctx := rxStarted, out := [], ev := .none } := rfl
  rw [rxFeed_append, rxFeed_garbage h, rxFeed_cons, hstep, rxFeed_more_flags, List.length_append,
    List.replicate_add]
  simp [List.replicate_succ]

/-! ### The closing flag -/

/-- Two bytes put together as the closing flag does it are a CRC exactly when they are its low and its high byte. -/
theorem crc_of_two_bytes (lo hi : Byte) (c : Word) :
    hi.setWidth 16 <<< 8 ||| lo.setWidth 16 = c ↔ lo = crcLow c ∧ hi = crcHigh c := by
  refine ⟨?_, by rintro ⟨rfl, rfl⟩; exact crcHigh_crcLow c⟩
  rintro rfl
  constructor
  · ext i hi
    simp [crcLow, hi, show i < 16 by omega]
  · ext i hi
    simp [crcHigh, hi, show 8 + i < 16 by omega]

/-- The last two elements of a list. -/
theorem drop_length_sub_two {d : List Byte} {lo hi : Byte} (h2 : 2 ≤ d.length) (hlo : d[d.length - 2]? = some lo)
    (hhi : d[d.length - 1]? = some hi) : d.drop (d.length - 2) = [lo, hi] := by
  obtain ⟨hlt, rfl⟩ := List.getElem?_eq_some_iff.mp hlo
  obtain ⟨hlt', rfl⟩ := List.getElem?_eq_some_iff.mp hhi
  rw [List.drop_eq_getElem_cons hlt, List.drop_eq_getElem_cons (by omega), List.drop_eq_nil_of_le (by omega)]
  simp only [show d.length - 2 + 1 = d.length - 1 by omega]

/-- The comparison at the closing flag (41_rx_deframer.md R85) is the condition of 30_encoding.md R51 on the data. -/
theorem HoldsData.rxGood_eq {x : RxCtx} {d : List Byte} (h : HoldsData x d) : rxGood x = goodData d := by
  unfold rxGood goodData
  rw [h.cnt_eq]
  split
  · next h2 =>
    have hlast := drop_length_sub_two h2 (h.older h2) (h.newer h2)
    have hcrc : crcOf (d.take (d.length - 2)) = x.crc := h.crc_eq.symm
    rw [hlast, hcrc, ← h.cnt_eq, Bool.eq_iff_iff]
    simp [crc_of_two_bytes, h.cnt_eq, h2]
  · next h2 => simp [h2]

theorem rxFeed_closing_flag {x : RxCtx} {d : List Byte} (hst : x.st = .data) (h : HoldsData x d) :
    rxFeed x [FLAG] = { ctx := RxCtx.reset, out := [], evs := [if goodData d then .frameOk else .errCrc] } := by
  have hstep : rxStep x FLAG = takeEvent (if goodData d then .frameOk else .errCrc) := by
    simp only [rxStep, hst, if_true, h.rxGood_eq]
    split <;> rfl
  rw [rxFeed_cons, hstep]
  rfl

/-- Settles O39: garbage and flags lead to the started frame, the units put their bytes into it, and the closing flag
compares. -/
theorem deframerReadsTheWireGrammar : Obligations.DeframerReadsTheWireGrammar := by
  intro garbage n units hgarbage hne hlegal d wire
  obtain ⟨y, out, hy, hst, hout, hunits⟩ :=
    rxFeed_units (x := rxStarted) (.inl rfl) (holdsData_reset.set_st .start) hlegal
  have hwire : rxFeed RxCtx.reset wire = { ctx := y, out := payloadOf d, evs := List.replicate wire.length .none } := by
    have hout' : out = payloadOf d := hout
    rw [rxFeed_append, rxFeed_opening hgarbage, hunits, hout', List.length_append (bs := units.flatMap _),
      List.replicate_add]
    rfl
  rw [rxFeed_append, hwire, rxFeed_closing_flag (hst hne) hy]
  simp [payloadOf, d]
end Sys2Proof.Machine

/-! PROOFS of the statements of 40_crc.md. First the engine: the shift steps are linear over XOR (R76), hence an update
is a shift of the accumulator and one value that depends on a byte alone (R70). Then the table, the residue, the two
operations and the running checksum. -/

namespace Sys2Proof.Machine

/-! ### Linearity over XOR -/

/-- The polynomial enters a sum of two words exactly when it enters one of them and not the other. -/
theorem crcShift_xor (x y : Word) : crcShift (x ^^^ y) = crcShift x ^^^ crcShift y := by
  unfold crcShift
  rw [BitVec.msb_xor, BitVec.shiftLeft_xor_distrib]
  cases x.msb <;> cases y.msb
  · rfl
  · exact BitVec.xor_assoc ..
  · simp only [Bool.xor_false, if_true, Bool.false_eq_true, if_false]
    ac_rfl
  · calc x <<< 1 ^^^ y <<< 1
        = x <<< 1 ^^^ y <<< 1 ^^^ (POLY ^^^ POLY) := by rw [BitVec.xor_self, BitVec.xor_zero]
      _ = (x <<< 1 ^^^ POLY) ^^^ (y <<< 1 ^^^ POLY) := by ac_rfl

theorem crcShifts_xor (k : Nat) (x y : Word) : crcShifts k (x ^^^ y) = crcShifts k x ^^^ crcShifts k y := by
  induction k generalizing x y with
  | zero => rfl
  | succ k ih => simp only [crcShifts_succ, crcShift_xor, ih]

theorem crcUpdate_xor (a a' : Word) (b b' : Byte) :
    crcUpdate (a ^^^ a') (b ^^^ b') = crcUpdate a b ^^^ crcUpdate a' b' := by
  unfold crcUpdate
  rw [← crcShifts_xor, BitVec.setWidth_xor, BitVec.shiftLeft_xor_distrib]
  congr 1
  ac_rfl

@[simp] theorem crcUpdate_zero_zero : crcUpdate 0#16 0#8 = 0#16 := by decide

/-- Settles O19: the shift steps are linear and so is the entry of the byte. -/
theorem crcUpdateIsLinear : Obligations.CrcUpdateIsLinear :=
  ⟨crcUpdate_zero_zero, crcUpdate_xor⟩

/-! ### An update by bytes -/

theorem crcShift_of_lt {x : Word} (h : x.toNat * 2 < 2 ^ 16) : crcShift x = x <<< 1 := by
  have hmsb : x.msb = false := BitVec.msb_eq_false_iff_two_mul_lt.mpr (by omega)
  rw [crcShift, hmsb]
  rfl

/-- While the leading bits are zero the polynomial does not enter: the shift steps are a shift. -/
theorem crcShifts_of_lt {k : Nat} {x : Word} (h : x.toNat * 2 ^ k < 2 ^ 16) : crcShifts k x = x <<< k := by
  induction k generalizing x with
  | zero => exact (BitVec.shiftLeft_zero x).symm
  | succ k ih =>
    have htwice : x.toNat * 2 * 2 ^ k < 2 ^ 16 := by rwa [Nat.mul_assoc, ← Nat.pow_succ']
    have hlt : x.toNat * 2 < 2 ^ 16 := lt_of_le_of_lt (Nat.le_mul_of_pos_right _ (Nat.two_pow_pos k)) htwice
    have hshift : (x <<< 1).toNat = x.toNat * 2 := by
      rw [BitVec.toNat_shiftLeft, Nat.shiftLeft_eq, pow_one, Nat.mod_eq_of_lt hlt]
    rw [crcShifts_succ, crcShift_of_lt hlt, ih (by rwa [hshift]), ← BitVec.shiftLeft_add, Nat.add_comm]

theorem setWidth_ushiftRight_eq_crcHigh (a : Word) : (a >>> 8).setWidth 8 = crcHigh a := by
  apply BitVec.eq_of_toNat_eq
  simp [crcHigh]

/-- The two bytes of a word share no bit, so OR and XOR put them together alike. -/
theorem crcHigh_xor_crcLow (a : Word) : (crcHigh a).setWidth 16 <<< 8 ^^^ (crcLow a).setWidth 16 = a := by
  apply BitVec.eq_of_getLsbD_eq
  intro i hi
  by_cases h : i < 8
  · simp [crcLow, h, hi]
  · simp [crcHigh, crcLow, h, hi, show i - 8 < 8 by omega, show 8 + (i - 8) = i by omega]

/-- A shift by eight pushes the high byte out. -/
theorem crcLow_shiftLeft (a : Word) : (crcLow a).setWidth 16 <<< 8 = a <<< 8 := by
  conv_rhs => rw [← crcHigh_xor_crcLow a, BitVec.shiftLeft_xor_distrib, ← BitVec.shiftLeft_add,
    BitVec.shiftLeft_eq_zero (Nat.le_refl 16), BitVec.zero_xor]

theorem crcShifts_crcLow (a : Word) : crcShifts 8 ((crcLow a).setWidth 16) = a <<< 8 := by
  have hlow := (crcLow a).isLt
  rw [crcShifts_of_lt (by rw [BitVec.toNat_setWidth]; omega), crcLow_shiftLeft]

theorem crcUpdate_zero_left (b : Byte) : crcUpdate 0x0000 b = crcShifts 8 (b.setWidth 16 <<< 8) :=
  congrArg (crcShifts 8) BitVec.zero_xor

/-- The table form of an update, with the table's value computed (40_crc.md R70): the low byte of the accumulator is
only shifted, and its high byte enters together with the byte. -/
theorem crcUpdate_eq_shift_xor (a : Word) (b : Byte) :
    crcUpdate a b = a <<< 8 ^^^ crcUpdate 0x0000 (crcHigh a ^^^ b) := by
  have hsplit : a ^^^ b.setWidth 16 <<< 8 =
      (crcLow a).setWidth 16 ^^^ (crcHigh a ^^^ b).setWidth 16 <<< 8 := by
    conv_lhs => rw [← crcHigh_xor_crcLow a]
    rw [BitVec.setWidth_xor, BitVec.shiftLeft_xor_distrib]
    ac_rfl
  rw [crcUpdate, hsplit, crcShifts_xor, crcShifts_crcLow, crcUpdate_zero_left]

/-! ### The table -/

/-- The values that the table prints for the indices from `n` on (40_crc.md R69). -/
def tableRows (n k : Nat) : List Word := (List.range' n k).map fun i => crcUpdate 0x0000 (BitVec.ofNat 8 i)

theorem tableRows_append (n k j : Nat) : tableRows n k ++ tableRows (n + k) j = tableRows n (k + j) := by
  rw [tableRows, tableRows, tableRows, ← List.map_append, List.range'_append_1]

theorem crcTable0_eq : crcTable0 = tableRows 0 64 := by decide
theorem crcTable1_eq : crcTable1 = tableRows 64 64 := by decide
theorem crcTable2_eq : crcTable2 = tableRows 128 64 := by decide
theorem crcTable3_eq : crcTable3 = tableRows 192 64 := by decide

theorem crcTable_eq : crcTable = tableRows 0 TABLE_N := by
  rw [crcTable, crcTable0_eq, crcTable1_eq, crcTable2_eq, crcTable3_eq]
  simp only [tableRows_append 0 64 64, tableRows_append 0 128 64, tableRows_append 0 192 64]

theorem crcTable_length : crcTable.length = TABLE_N := by
  rw [crcTable_eq, tableRows, List.length_map, List.length_range']

theorem tableEntry_eq_crcUpdate (i : Byte) : tableEntry i = crcUpdate 0x0000 i := by
  have hi : i.toNat < TABLE_N := i.isLt
  simp [tableEntry, crcTable_eq, tableRows, hi]

theorem crcUpdate_eq_table (a : Word) (b : Byte) :
    crcUpdate a b = a <<< 8 ^^^ tableEntry ((a >>> 8).setWidth 8 ^^^ b) := by
  rw [tableEntry_eq_crcUpdate, setWidth_ushiftRight_eq_crcHigh, crcUpdate_eq_shift_xor]

/-- Settles O18: the printed values are the updates of the zero accumulator, and on that accumulator any other table
gives itself away. -/
theorem crcTableFormIsTheEngine : Obligations.CrcTableFormIsTheEngine := by
  refine ⟨crcTable_length, tableEntry_eq_crcUpdate, crcUpdate_eq_table, fun T hT i => ?_⟩
  have hzero : crcUpdate 0x0000 i = T i := by simpa using hT 0x0000 i
  rw [tableEntry_eq_crcUpdate, hzero]

/-! ### The residue -/

/-- The high byte of the accumulator cancels itself. -/
theorem crcUpdate_crcHigh (c : Word) : crcUpdate c (crcHigh c) = c <<< 8 := by
  simp [crcUpdate_eq_shift_xor c]

theorem crcHigh_shiftLeft (c : Word) : crcHigh (c <<< 8) = crcLow c := by
  have hbytes : (crcLow c).setWidth 16 <<< 8 ||| (0#8).setWidth 16 = c <<< 8 := by
    rw [crcLow_shiftLeft, BitVec.setWidth_zero, BitVec.or_zero]
  exact ((crc_of_two_bytes _ _ _).mp hbytes).2.symm

/-- Settles O20: fed high byte first, each byte of the checksum meets itself in the accumulator and cancels; the three
checksums fed low byte first leave three values. -/
theorem crcResidueIsHighByteFirst : Obligations.CrcResidueIsHighByteFirst := by
  have hFFFF : crcUpdate 0xFFFF (crcLow 0xFFFF) = 0xFF00 := by decide
  have hB915 : crcUpdate 0xB915 (crcLow 0xB915) = 0x6166 := by decide
  have h29B1 : crcUpdate 0x29B1 (crcLow 0x29B1) = 0xB3B1 := by decide
  refine ⟨fun c => ?_, by rw [hFFFF]; decide, by rw [hB915]; decide, by rw [h29B1]; decide⟩
  calc crcUpdate (crcUpdate c (crcHigh c)) (crcLow c)
      = crcUpdate (c <<< 8) (crcHigh (c <<< 8)) := by rw [crcUpdate_crcHigh, crcHigh_shiftLeft]
    _ = c <<< 8 <<< 8 := crcUpdate_crcHigh _
    _ = c <<< 16 := (BitVec.shiftLeft_add c 8 8).symm
    _ = 0x0000 := BitVec.shiftLeft_eq_zero (Nat.le_refl 16)

/-! ### The two operations of the channel `CRC` -/

theorem exec_crcUpdate (s : State) (b : Byte) :
    exec (.crcUpdate b) s = .next { s with crc := { acc := crcUpdate s.crc.acc b },
                                           rsp := some (.prim (crcUpdate s.crc.acc b).toNat .none []) } := rfl

/-- Settles O22. -/
theorem crcInitRestartsTheAccumulator : Obligations.CrcInitRestartsTheAccumulator :=
  ⟨decode_encode rfl, fun _ => rfl⟩

/-- An operand is written into a command word by OR (30_encoding.md R54). -/
theorem commandWord_zero_or (ch fn : BitVec 4) (b : Byte) :
    commandWord ch fn 0x00 ||| b.setWidth 16 = commandWord ch fn b := by
  have hfields : ch.toNat * 4096 + fn.toNat * 256 = (ch.toNat * 16 + fn.toNat) <<< 8 := by
    rw [Nat.shiftLeft_eq]; omega
  have hb : (b.setWidth 16).toNat = b.toNat := BitVec.toNat_setWidth_of_le (by decide)
  apply BitVec.eq_of_toNat_eq
  rw [BitVec.toNat_or, commandWord_toNat, commandWord_toNat, hb, hfields, Nat.shiftLeft_add_eq_or_of_lt b.isLt]
  rfl

theorem crcShifts_eq_iterate (k : Nat) (x : Word) : crcShifts k x = crcShift^[k] x := by
  induction k generalizing x with
  | zero => rfl
  | succ k ih => rw [crcShifts_succ, ih, Function.iterate_succ_apply]

/-- The shift step as 40_crc.md R68 writes it. -/
theorem crcShift_eq_loop_body :
    crcShift = fun x : Word =>
      if x.getLsbD 15 then ((x <<< 1) &&& 0xFFFF) ^^^ 0x1021 else (x <<< 1) &&& 0xFFFF := by
  funext x
  rw [and_FFFF]
  rfl

/-- Settles O23: the command word by the encoder, the operation by its equation, the update by its loop. -/
theorem crcUpdateFoldsOneByte : Obligations.CrcUpdateFoldsOneByte := by
  refine ⟨fun b => ?_, exec_crcUpdate, fun a b => ?_, by decide, by decide⟩
  · have hword : 0x0100 ||| b.setWidth 16 = commandWord 0 1 b := commandWord_zero_or 0 1 b
    exact hword ▸ decode_encode rfl
  · rw [← crcShift_eq_loop_body, ← crcShifts_eq_iterate]
    rfl

/-! ### The running checksum on the machine -/

/-- A run of operations that starts with one that answers. -/
theorem runOps_cons {i : Instr} {is : List Instr} {s t u : State} {r : Response} {rs : List Response}
    (hi : exec i s = .next t) (hr : t.rsp = some r) (his : runOps is t = some (rs, u)) :
    runOps (i :: is) s = some (r :: rs, u) := by
  simp only [runOps, hi, hr, his]

/-- The nonempty prefixes of a list with an element in front, mapped. -/
theorem map_inits_tail_cons {α β : Type} (f : List α → β) (a : α) (l : List α) :
    (a :: l).inits.tail.map f = f [a] :: l.inits.tail.map fun q => f (a :: q) := by
  cases l <;> simp

/-- Feeding a list into an accumulator that holds a checksum, by the bytes of the list. -/
theorem runOps_crcUpdate {l m : List Byte} {s : State} (hs : s.crc.acc = crcOf l) :
    ∃ rs t, runOps (m.map .crcUpdate) s = some (rs, t) ∧ t.crc.acc = crcOf (l ++ m) ∧
      t.rx = s.rx ∧ t.tx = s.tx ∧ t.dst = s.dst ∧
      rs = m.inits.tail.map fun q => Response.prim (crcOf (l ++ q)).toNat .none [] := by
  induction m generalizing l s with
  | nil => exact ⟨[], s, rfl, by simpa using hs, rfl, rfl, rfl, rfl⟩
  | cons b m ih =>
    have hacc : crcUpdate s.crc.acc b = crcOf (l ++ [b]) := by rw [hs, crcOf_snoc]
    obtain ⟨rs, u, hrun, hu, hrx, htx, hdst, hrs⟩ :=
      ih (l := l ++ [b]) (s := { s with crc := { acc := crcUpdate s.crc.acc b },
                                        rsp := some (.prim (crcUpdate s.crc.acc b).toNat .none []) }) hacc
    refine ⟨_, u, runOps_cons (exec_crcUpdate s b) rfl hrun, by simpa using hu, hrx, htx, hdst, ?_⟩
    rw [map_inits_tail_cons, hrs, hacc]
    simp

/-- Settles O24: by induction on the bytes fed. -/
theorem checksumRunsOverAStream : Obligations.ChecksumRunsOverAStream :=
  ⟨rfl, crcOf_snoc, fun _ _ _ => runOps_crcUpdate⟩

end Sys2Proof.Machine

/-! PROOFS of the statements of 41_rx_deframer.md. First the receive step and the primitives `RX.INIT`, `RX.BYTE` and
`RX.DONE`; then the deframer fed with a list, `RX.UNPACK` by the ways it ends, and the frame that a host takes in. -/

namespace Sys2Proof.Machine

/-! ### The receive step -/

theorem rxWouldAccept_iff {x : RxCtx} {b : Byte} : rxWouldAccept x b = true ↔ x.st ≠ .idle ∧ b ≠ FLAG ∧ b ≠ ESC := by
  simp only [rxWouldAccept, Bool.and_eq_true, decide_eq_true_eq, and_assoc]

/-- In `IDLE` a byte can change the state register alone (41_rx_deframer.md R82). -/
theorem rxStep_of_idle {x : RxCtx} {b : Byte} (hx : x.st = .idle) :
    rxStep x b = { ctx := { x with st := if b = FLAG then .start else .idle }, out := [], ev := .none } := by
  unfold rxStep
  rw [hx]
  dsimp only
  split
  · rfl
  · rw [← hx]

/-- Settles O34: the row of the byte, and in it the column of the state. -/
theorem rxTransitionTable : Obligations.RxTransitionTable := by
  intro x b
  rcases rxStep_cases x b with
    ⟨ha, e⟩ | ⟨-, hst, e⟩ | ⟨-, hst, rfl, e⟩ | ⟨-, hst, rfl, e⟩ | ⟨-, hst, rfl, e⟩ | ⟨-, hst, hb, e⟩
  · obtain ⟨hst, hflag, hesc⟩ := rxWouldAccept_iff.mp ha
    rw [e]
    cases h : x.st <;> simp_all
  · rw [e]
    simp +contextual [hst]
  · rw [e]
    simp [hst]
  · rw [e]
    rcases hst with hst | hst <;> simp [hst]
  · rw [e]
    cases rxGood x <;> simp [hst]
  · rw [e]
    rcases hb with rfl | rfl <;> simp [hst]

/-- Settles O35. -/
theorem wouldEmitPredictsTheStep : Obligations.WouldEmitPredictsTheStep := by
  intro x b
  constructor
  · rw [rxStep_out]
    cases rxWouldEmit x b <;> simp
  · simp only [rxWouldEmit, Bool.and_eq_true, rxWouldAccept_iff, decide_eq_true_eq, and_assoc]

/-- An accept as one context, by the parity of the count (41_rx_deframer.md R81). -/
theorem rxAccept_ctx (x : RxCtx) (d : Byte) :
    (rxAccept x d).ctx =
      { st := .data, crc := (rxAccept x d).out.foldl crcUpdate x.crc, cnt := x.cnt + 1,
        lb0 := if x.cnt % 2 = 0 then d else x.lb0, lb1 := if x.cnt % 2 = 0 then x.lb1 else d } := by
  unfold rxAccept
  split <;> simp [lbSet_lb0, lbSet_lb1]

/-- The slot that an accept takes is read and written again two accepts later. -/
theorem rxAccept_out_two_later (x : RxCtx) (d d1 d2 : Byte) :
    (rxAccept (rxAccept (rxAccept x d).ctx d1).ctx d2).out = [d] := by
  rw [rxAccept_out, if_pos (by simp only [rxAccept_cnt]; omega), rxAccept_lbGet,
    lbGet_lbSet_other _ _ _ _ (by simp only [rxAccept_cnt]; omega), rxAccept_lbGet,
    lbGet_lbSet_same _ _ _ _ (by simp only [rxAccept_cnt]; omega)]

theorem rxResult_ext {r : RxResult} {x : RxCtx} {out : List Byte} {ev : Event} (hctx : r.ctx = x) (hout : r.out = out)
    (hev : r.ev = ev) : r = { ctx := x, out := out, ev := ev } := by
  subst hctx hout hev; rfl

/-- Settles O25, by what an accept makes of the context and what it emits. -/
theorem acceptLagsByTwoBytes : Obligations.AcceptLagsByTwoBytes := by
  intro x d older lb0' lb1'
  refine ⟨fun h => ?_, fun h => ?_, rxAccept_out_two_later x d⟩
  · have hout : (rxAccept x d).out = [older] := by rw [rxAccept_out, if_pos h]; rfl
    refine rxResult_ext ?_ hout (rxAccept_ev x d)
    rw [rxAccept_ctx, hout]; rfl
  · have hout : (rxAccept x d).out = [] := by rw [rxAccept_out, if_neg (by omega)]
    refine rxResult_ext ?_ hout (rxAccept_ev x d)
    rw [rxAccept_ctx, hout]; rfl

/-! ### `RX.INIT` and `RX.DONE` -/

theorem exec_rxInit (s : State) :
    exec .rxInit s = .next { s with rx := RxCtx.reset, rsp := some (.prim 0 .none []) } := rfl

/-- Settles O26: in `IDLE` the context is the reset context already (10_state.md R28 item a). -/
theorem rxInitAbandonsTheFrame : Obligations.RxInitAbandonsTheFrame := by
  refine ⟨decode_encode rfl, exec_rxInit, rfl, fun s t hinv hidle h => ?_⟩
  obtain rfl := Host.Outcome.next.inj (exec_rxInit s ▸ h)
  exact (hinv.idle_is_reset hidle).symm

theorem exec_rxDone (s : State) : exec .rxDone s = .next { s with rsp := some (.prim (doneValue s.rx) .none []) } := rfl

theorem doneFlag_iff {x : RxCtx} : doneFlag x = true ↔ x.st = .idle := beq_iff_eq

/-- Settles O33. -/
theorem rxDoneReportsIdle : Obligations.RxDoneReportsIdle := by
  refine ⟨decode_encode rfl, fun s => ⟨fun h => ?_, fun h => ?_⟩⟩
  · rw [exec_rxDone, doneValue, if_pos (doneFlag_iff.mpr h)]
  · rw [exec_rxDone, doneValue, if_neg (mt doneFlag_iff.mp h)]

/-! ### `RX.BYTE` -/

/-- The receive step has a meaning where an accept finds room in the count (41_rx_deframer.md R96). -/
theorem rxStepChecked_of_room {cfg : Config} {x : RxCtx} {b : Byte}
    (h : rxWouldAccept x b = true → x.cnt + 1 < 2 ^ cfg.countW) : rxStepChecked cfg x b = some (rxStep x b) := by
  unfold rxStepChecked countFull
  rw [if_neg]
  simp only [Bool.and_eq_true, decide_eq_true_eq, not_and]
  intro ha
  have := h ha
  omega

theorem exec_rxByte {s : State} {b : Byte} (h : rxWouldAccept s.rx b = true → s.rx.cnt + 1 < 2 ^ s.cfg.countW) :
    exec (.rxByte b) s =
      .next { s with rx := (rxStep s.rx b).ctx,
                     rsp := some (.prim (returnValue s.cfg (rxStep s.rx b).ev (rxStep s.rx b).out.length)
                       (rxStep s.rx b).ev (rxStep s.rx b).out) } := by
  simp only [exec, execRxByte, rxStepChecked_of_room h]
  rfl

/-- `RX.BYTE` where the step is known and is no accept. -/
theorem exec_rxByte_of_step {s : State} {b : Byte} {r : RxResult} (hno : rxWouldAccept s.rx b = false)
    (hr : rxStep s.rx b = r) :
    exec (.rxByte b) s =
      .next { s with rx := r.ctx, rsp := some (.prim (returnValue s.cfg r.ev r.out.length) r.ev r.out) } := by
  subst hr
  exact exec_rxByte fun ha => by simp [hno] at ha

/-- `RX.BYTE` of a byte that is accepted. -/
theorem exec_rxByte_accept {s : State} {b : Byte} (ha : rxWouldAccept s.rx b = true)
    (hroom : s.rx.cnt + 1 < 2 ^ s.cfg.countW) :
    exec (.rxByte b) s =
      .next { s with rx := (rxAccept s.rx (rxDataByte s.rx b)).ctx,
                     rsp := some (.prim (rxAccept s.rx (rxDataByte s.rx b)).out.length .none
                       (rxAccept s.rx (rxDataByte s.rx b)).out) } := by
  rw [exec_rxByte fun _ => hroom, rxStep_accept ha, rxAccept_ev]
  rfl

theorem exec_rxByte_full {s : State} {b : Byte} (ha : rxWouldAccept s.rx b = true)
    (hfull : 2 ^ s.cfg.countW - 1 ≤ s.rx.cnt) : exec (.rxByte b) s = .refused .countOverflow := by
  simp only [exec, execRxByte, rxStepChecked, countFull, ha, hfull, decide_true, Bool.and_self, if_true]

/-- Settles O32. -/
theorem rxByteAtFullCountIsRefused : Obligations.RxByteAtFullCountIsRefused := by
  intro s b hfull hst hflag hesc
  exact exec_rxByte_full (rxWouldAccept_iff.mpr ⟨hst, hflag, hesc⟩) hfull

/-- Settles O27. -/
theorem rxByteInIdle : Obligations.RxByteInIdle := by
  intro s b hst
  exact exec_rxByte_of_step (by simp [rxWouldAccept, hst]) (rxStep_of_idle hst)

/-- Settles O28: the flag, the escape byte and the rest. -/
theorem rxByteInStart : Obligations.RxByteInStart := by
  intro s b hst
  refine ⟨?_, ?_, fun hflag hesc hroom => ?_, fun hcnt => ?_⟩
  · rintro rfl
    exact exec_rxByte_of_step (r := ⟨s.rx, [], .none⟩) (by simp [rxWouldAccept]) (by simp [rxStep, hst])
  · rintro rfl
    exact exec_rxByte_of_step (by simp [rxWouldAccept]) (rxStep_esc (.inl hst))
  · have ha : rxWouldAccept s.rx b = true := rxWouldAccept_iff.mpr ⟨by simp [hst], hflag, hesc⟩
    simpa [rxDataByte, hst] using exec_rxByte_accept ha hroom
  · rw [rxAccept_out, hcnt, if_neg (by decide)]

/-- Settles O29. -/
theorem rxByteInData : Obligations.RxByteInData := by
  intro s b hst hflag
  refine ⟨?_, fun hesc hroom => ?_⟩
  · rintro rfl
    exact exec_rxByte_of_step (by simp [rxWouldAccept]) (rxStep_esc (.inr hst))
  · have ha : rxWouldAccept s.rx b = true := rxWouldAccept_iff.mpr ⟨by simp [hst], hflag, hesc⟩
    simpa [rxDataByte, hst] using exec_rxByte_accept ha hroom

/-- Settles O31. -/
theorem rxByteInEscaped : Obligations.RxByteInEscaped := by
  intro s b hst
  refine ⟨fun hb => ?_, fun hflag hesc hroom => ?_⟩
  · exact exec_rxByte_of_step (r := takeEvent .errFrame) (by rcases hb with rfl | rfl <;> simp [rxWouldAccept])
      (by simp [rxStep, hst, hb])
  · have ha : rxWouldAccept s.rx b = true := rxWouldAccept_iff.mpr ⟨by simp [hst], hflag, hesc⟩
    simpa [rxDataByte, hst] using exec_rxByte_accept ha hroom

/-- Two bytes in a row are the word that the closing flag puts together. -/
theorem append_eq_shiftLeft_or (hi lo : Byte) : hi ++ lo = hi.setWidth 16 <<< 8 ||| lo.setWidth 16 := by
  apply BitVec.eq_of_getLsbD_eq
  intro i h
  rw [BitVec.getLsbD_append]
  by_cases hlow : i < 8
  · simp [hlow, h]
  · simp [hlow, h, BitVec.getLsbD_of_ge lo i (by omega)]

/-- The comparison at the closing flag, with the two slots by the parity of the count (41_rx_deframer.md R85). -/
theorem rxGood_iff (x : RxCtx) :
    rxGood x = true ↔ 2 ≤ x.cnt ∧
      (if x.cnt % 2 = 0 then x.lb1 else x.lb0) ++ (if x.cnt % 2 = 0 then x.lb0 else x.lb1) = x.crc := by
  have hother : lbGet x (x.cnt + 1) = if x.cnt % 2 = 0 then x.lb1 else x.lb0 := by
    by_cases h : x.cnt % 2 = 0
    · rw [lbGet, if_neg (by simp only [LB_N]; omega), if_pos h]
    · rw [lbGet, if_pos (by simp only [LB_N]; omega), if_neg h]
  unfold rxGood
  split
  · next h => simp only [hother, append_eq_shiftLeft_or, beq_iff_eq, h, true_and]; rfl
  · next h => simp [h]

/-- Settles O30: the flag takes the event that the comparison chooses. -/
theorem rxClosingFlagComparesTheCrc : Obligations.RxClosingFlagComparesTheCrc := by
  intro s hst lo hi fresh
  have hno : rxWouldAccept s.rx FLAG = false := by simp [rxWouldAccept]
  have hstep : rxStep s.rx FLAG = if rxGood s.rx then takeEvent .frameOk else takeEvent .errCrc := by
    simp [rxStep, hst]
  refine ⟨fun hgood => ?_, fun hbad => ?_⟩
  · exact exec_rxByte_of_step hno (hstep.trans (if_pos ((rxGood_iff s.rx).mpr hgood)))
  · exact exec_rxByte_of_step hno (hstep.trans (if_neg (mt (rxGood_iff s.rx).mp hbad)))

end Sys2Proof.Machine

/-! The deframer fed with a list, by `RX.BYTE` and in one step of the machine (41_rx_deframer.md R80, R87, R89). -/

namespace Sys2Proof.Machine

/-! ### `RX.BYTE` on each byte of a list -/

theorem returnValue_eq_ite (cfg : Config) (ev : Event) (n : Nat) :
    returnValue cfg ev n = if ev = .errCrc then cfg.errCrc else if ev = .errFrame then cfg.errFrame else (n : Int) := by
  cases ev <;> rfl

/-- An event comes without output (60_exceptions.md R132). -/
theorem rxStep_out_of_event {x : RxCtx} {b : Byte} (h : (rxStep x b).ev ≠ .none) : (rxStep x b).out = [] := by
  rw [(rxStep_event h).1, takeEvent_out]

theorem runOps_rxByte {bs : List Byte} {s : State} (hroom : s.rx.cnt + bs.length < 2 ^ s.cfg.countW) :
    ∃ rs t, runOps (bs.map .rxByte) s = some (rs, t) ∧ t.rx = (rxFeed s.rx bs).ctx ∧
      rs.flatMap Response.out = (rxFeed s.rx bs).out ∧ rs.map Response.event = (rxFeed s.rx bs).evs ∧
      t.crc = s.crc ∧ t.tx = s.tx ∧ t.dst = s.dst := by
  induction bs generalizing s with
  | nil => exact ⟨[], s, rfl, rfl, rfl, rfl, rfl, rfl, rfl⟩
  | cons b bs ih =>
    rw [List.length_cons] at hroom
    have hb := exec_rxByte (s := s) (b := b) fun _ => by omega
    have hcnt := rxStep_cnt_le s.rx b
    obtain ⟨rs, u, hrun, hrx, hout, hev, hframe⟩ :=
      ih (s := { s with rx := (rxStep s.rx b).ctx,
                        rsp := some (.prim (returnValue s.cfg (rxStep s.rx b).ev (rxStep s.rx b).out.length)
                          (rxStep s.rx b).ev (rxStep s.rx b).out) }) (by dsimp only; omega)
    refine ⟨_, u, runOps_cons hb rfl hrun, hrx, ?_, ?_, hframe⟩
    · rw [List.flatMap_cons, hout]; rfl
    · rw [List.map_cons, hev]; rfl

/-- Settles O37: the command word by the encoder, one byte by the equation of `RX.BYTE`, a list by induction on its
bytes. -/
theorem rxBytesFeedTheDeframer : Obligations.RxBytesFeedTheDeframer := by
  refine ⟨fun b => ?_, fun s b hroom => ?_, fun s b => exec_rxByte_full, fun x b => rxStep_out_of_event,
    fun bs s => runOps_rxByte⟩
  · have hword : 0x2100 ||| b.setWidth 16 = commandWord 2 1 b := commandWord_zero_or 2 1 b
    exact hword ▸ decode_encode rfl
  · rw [exec_rxByte hroom, returnValue_eq_ite]

/-! ### Into `IDLE` and out of it -/

/-- Without a flag a step stays in `IDLE` (41_rx_deframer.md R87). -/
theorem rxStep_keeps_idle {x : RxCtx} {b : Byte} (hb : b ≠ FLAG) (hx : x.st = .idle) :
    (rxStep x b).ctx.st = .idle := by
  rw [rxStep_of_idle hx, if_neg hb]

/-- A byte that is not reserved leaves an open frame open (41_rx_deframer.md R87). -/
theorem rxStep_keeps_open {x : RxCtx} {b : Byte} (hb : b ≠ FLAG ∧ b ≠ ESC) (hx : x.st ≠ .idle) :
    (rxStep x b).ctx.st ≠ .idle := by
  rw [rxStep_accept (rxWouldAccept_iff.mpr ⟨hx, hb⟩), rxAccept_st]
  decide

/-- What every byte of a list keeps, feeding the list keeps. -/
theorem rxFeed_keeps {P : RxCtx → Prop} {bs : List Byte} (hstep : ∀ b ∈ bs, ∀ y, P y → P (rxStep y b).ctx)
    {x : RxCtx} (hx : P x) : P (rxFeed x bs).ctx := by
  induction bs generalizing x with
  | nil => exact hx
  | cons b bs ih =>
    obtain ⟨hb, hbs⟩ := List.forall_mem_cons.mp hstep
    exact ih hbs (hb x hx)

/-- An operation that leaves `IDLE` is given a flag. -/
theorem exec_leaves_idle {i : Instr} {s t : State} (h : exec i s = .next t) (hs : s.rx.st = .idle)
    (ht : t.rx.st ≠ .idle) : i = .rxByte FLAG ∨ ∃ cap src, i = .rxUnpack cap src ∧ FLAG ∈ src := by
  by_cases hc : channelOf i = .rx
  · cases i with
    | rxInit => cases h; exact absurd rfl ht
    | rxDone => cases h; exact absurd hs ht
    | rxByte b =>
      obtain ⟨rfl, -⟩ := execRxByte_next h
      by_cases hb : b = FLAG
      · exact .inl (by rw [hb])
      · exact absurd (rxStep_keeps_idle hb hs) ht
    | rxUnpack cap src =>
      obtain ⟨-, -, k, ret, consumed, -, rfl, -⟩ := execRxUnpack_next h
      refine .inr ⟨cap, src, rfl, by_contra fun hflag => ht ?_⟩
      refine rxFeed_keeps (P := fun y => y.st = .idle) (fun b hb y => rxStep_keeps_idle ?_) hs
      exact ne_of_mem_of_not_mem (List.mem_of_mem_take hb) hflag
    | _ => cases hc
  · obtain ⟨-, -, -, hrx, -⟩ := exec_frame h
    exact absurd (hrx hc ▸ hs) ht

/-- An operation that comes into `IDLE` is `RX.INIT` or is given a reserved byte. -/
theorem exec_enters_idle {i : Instr} {s t : State} (h : exec i s = .next t) (hs : s.rx.st ≠ .idle)
    (ht : t.rx.st = .idle) :
    i = .rxInit ∨ (∃ b, (b = FLAG ∨ b = ESC) ∧ i = .rxByte b) ∨
      ∃ cap src, i = .rxUnpack cap src ∧ (FLAG ∈ src ∨ ESC ∈ src) := by
  by_cases hc : channelOf i = .rx
  · cases i with
    | rxInit => exact .inl rfl
    | rxDone => cases h; exact absurd ht hs
    | rxByte b =>
      obtain ⟨rfl, -⟩ := execRxByte_next h
      by_cases hb : b = FLAG ∨ b = ESC
      · exact .inr (.inl ⟨b, hb, rfl⟩)
      · exact absurd ht (rxStep_keeps_open (not_or.mp hb) hs)
    | rxUnpack cap src =>
      obtain ⟨-, -, k, ret, consumed, -, rfl, -⟩ := execRxUnpack_next h
      refine .inr (.inr ⟨cap, src, rfl, by_contra fun hres => ?_⟩)
      obtain ⟨hflag, hesc⟩ := not_or.mp hres
      refine rxFeed_keeps (P := fun y => y.st ≠ .idle) (fun b hb y => rxStep_keeps_open ⟨?_, ?_⟩) hs ht
      · exact ne_of_mem_of_not_mem (List.mem_of_mem_take hb) hflag
      · exact ne_of_mem_of_not_mem (List.mem_of_mem_take hb) hesc
    | _ => cases hc
  · obtain ⟨-, -, -, hrx, -⟩ := exec_frame h
    exact absurd (hrx hc ▸ ht) hs

/-- Settles O36, by the three things a step can do. -/
theorem onlyAFlagOpensAFrame : Obligations.OnlyAFlagOpensAFrame := by
  intro s t h
  obtain ⟨-, rfl⟩ | ⟨cells, rest, -, rfl⟩ | ⟨r, rest, i, hissue, hi, hexec⟩ := step_next h
  · exact ⟨fun hs ht => absurd hs ht, fun hs ht => absurd ht hs⟩
  · exact ⟨fun hs ht => absurd hs ht, fun hs ht => absurd ht hs⟩
  · refine ⟨fun hs ht => ⟨r, rest, hissue, ?_⟩, fun hs ht => ⟨r, rest, hissue, ?_⟩⟩
    · simpa only [hi, Decoded.instr.injEq] using exec_leaves_idle hexec hs ht
    · simpa only [hi, Decoded.instr.injEq] using exec_enters_idle hexec hs ht

/-! ### Short frames -/

theorem goodData_pair (x y : Byte) : goodData [x, y] = decide (x = 0xFF ∧ y = 0xFF) := by
  have hlow : crcLow crcInit = 0xFF := by decide
  have hhigh : crcHigh crcInit = 0xFF := by decide
  simp [goodData, hlow, hhigh]

theorem WireUnit.legal_plain {b : Byte} (hflag : b ≠ FLAG) (hesc : b ≠ ESC) :
    WireUnit.legal { byte := b, escaped := false } = true := by
  simp [WireUnit.legal, hflag, hesc]

/-- Settles O40: the frames with one or two data bytes by the wire grammar. -/
theorem shortFrames : Obligations.ShortFrames := by
  refine ⟨by decide, by decide, fun x hx hx' => ?_, fun x y hx hx' hy hy' => ?_⟩
  · exact deframerReadsTheWireGrammar [] 0 [⟨x, false⟩] (by simp) (by simp)
      (by simpa using WireUnit.legal_plain hx hx')
  · have hwire := deframerReadsTheWireGrammar [] 0 [⟨x, false⟩, ⟨y, false⟩] (by simp) (by simp)
      (by simpa using ⟨WireUnit.legal_plain hx hx', WireUnit.legal_plain hy hy'⟩)
    simp only [List.map_cons, List.map_nil, goodData_pair, decide_eq_true_eq] at hwire
    exact hwire

/-! ### One changed byte -/

/-- A shift step loses nothing: the bit it discards shows in bit 0, where the polynomial has a 1 (40_crc.md R68). -/
theorem crcShift_eq_zero {x : Word} (h : crcShift x = 0#16) : x = 0#16 := by
  have hbit : (crcShift x).getLsbD 0 = x.msb := by
    unfold crcShift
    cases x.msb <;> simp [POLY]
  have hmsb : x.msb = false := by rw [← hbit, h]; rfl
  have hlt : 2 * x.toNat < 2 ^ 16 := BitVec.msb_eq_false_iff_two_mul_lt.mp hmsb
  rw [crcShift_of_lt (by omega)] at h
  have hzero : (x <<< 1).toNat = 0 := congrArg BitVec.toNat h
  rw [BitVec.toNat_shiftLeft, Nat.shiftLeft_eq] at hzero
  exact BitVec.eq_of_toNat_eq (show x.toNat = 0 by omega)

theorem crcShift_injective : Function.Injective crcShift := by
  intro x y h
  have hxor : crcShift (x ^^^ y) = 0#16 := by rw [crcShift_xor, h, BitVec.xor_self]
  exact BitVec.xor_eq_zero_iff.mp (crcShift_eq_zero hxor)

theorem crcShifts_injective (k : Nat) : Function.Injective (crcShifts k) := by
  have hiter : crcShifts k = crcShift^[k] := funext (crcShifts_eq_iterate k)
  exact hiter ▸ crcShift_injective.iterate k

theorem crcUpdate_left_injective (b : Byte) : Function.Injective fun a => crcUpdate a b := by
  intro a a' h
  exact (BitVec.xor_left_inj _).mp (crcShifts_injective 8 h)

theorem crcUpdate_right_injective (a : Word) : Function.Injective (crcUpdate a) := by
  intro b b' h
  have hshift : b.setWidth 16 <<< 8 = b'.setWidth 16 <<< 8 := (BitVec.xor_right_inj _).mp (crcShifts_injective 8 h)
  have hbyte : ∀ c : Byte, crcHigh (c.setWidth 16 <<< 8) = c := fun c =>
    ((crc_of_two_bytes 0 c _).mp (by simp)).2.symm
  rw [← hbyte b, hshift, hbyte]

theorem foldl_crcUpdate_injective (l : List Byte) : Function.Injective fun a => l.foldl crcUpdate a := by
  induction l with
  | nil => exact fun _ _ h => h
  | cons b l ih => exact fun a a' h => crcUpdate_left_injective b (ih h)

/-- Settles O21: up to the byte the accumulators agree, at the byte they part, and no later byte brings them
together. -/
theorem oneChangedByteChangesTheCrc : Obligations.OneChangedByteChangesTheCrc := by
  intro pre post b b' hne h
  rw [crcOf_append, crcOf_append] at h
  exact hne (crcUpdate_right_injective (crcOf pre) (foldl_crcUpdate_injective post h))

end Sys2Proof.Machine

/-! `RX.UNPACK` by the ways it ends, and where it is refused (41_rx_deframer.md R92 to R97, R102). -/

namespace Sys2Proof.Machine

/-! ### The call and its loop -/

theorem exec_rxUnpack_of_next {cap : Nat} {src : List Byte} {s : State} {e : MacroEnd RxCtx}
    (hcap : capOk s.cfg cap = true) (hsrc : srcOk s.cfg src = true)
    (h : unpackLoop s.cfg cap src 0 0 s.rx s.dst = .next e) :
    exec (.rxUnpack cap src) s =
      .next { s with rx := e.ctx, dst := e.dst, rsp := some (.counted e.ret e.consumed) } := by
  simp only [exec, execRxUnpack, operandsOk, hcap, hsrc, h, Bool.and_self, if_true]
  rfl

theorem exec_rxUnpack_of_refused {cap : Nat} {src : List Byte} {s : State} {r : Refusal}
    (hcap : capOk s.cfg cap = true) (hsrc : srcOk s.cfg src = true)
    (h : unpackLoop s.cfg cap src 0 0 s.rx s.dst = .refused r) : exec (.rxUnpack cap src) s = .refused r := by
  simp only [exec, execRxUnpack, operandsOk, hcap, hsrc, h, Bool.and_self, if_true]

/-- Settles O41: the loop answers, and what it answers is one of the five ways. -/
theorem unpackEndsOneOfFiveWays : Obligations.UnpackEndsOneOfFiveWays := by
  intro s cap src hcap hsrc hroom
  obtain ⟨e, he⟩ := unpackLoop_answers (i := 0) (m := s.dst) (Nat.zero_le cap) hroom
  obtain ⟨k, hk, hctx, hdst, hlen, hend⟩ := unpackLoop_next (Nat.zero_le cap) he
  rw [Nat.zero_add] at hlen
  refine ⟨k, e.ret, e.consumed, e.dst, hk, ?_, hlen, fun a => ?_, hend⟩
  · rw [exec_rxUnpack_of_next hcap hsrc he, hctx]
  · rw [hdst, read_writeList]
    simp

/-- What a step emits has room where the loop does not stop before it. -/
theorem rxStep_out_fits {cap w : Nat} {x : RxCtx} {b : Byte} (hw : w ≤ cap)
    (hgo : ¬(rxWouldEmit x b = true ∧ w = cap)) : w + (rxStep x b).out.length ≤ cap := by
  rw [rxStep_out]
  split
  · next he =>
    have hne : w ≠ cap := fun h => hgo ⟨he, h⟩
    rw [List.length_singleton]
    omega
  · exact hw

/-- One turn of the loop that does not end it. -/
theorem unpackLoop_step {cfg : Config} {cap : Nat} {b : Byte} {rest : List Byte} {i w : Nat} {x : RxCtx} {m : Memory}
    (hw : w ≤ cap) (hgo : ¬(rxWouldEmit x b = true ∧ w = cap))
    (hroom : rxWouldAccept x b = true → x.cnt + 1 < 2 ^ cfg.countW) (hev : (rxStep x b).ev = .none) :
    unpackLoop cfg cap (b :: rest) i w x m =
      unpackLoop cfg cap rest (i + 1) (w + (rxStep x b).out.length) (rxStep x b).ctx
        (Memory.writeList m w (rxStep x b).out) := by
  rw [unpackLoop, if_neg (by simpa using hgo), rxStepChecked_of_room hroom]
  dsimp only
  rw [memWriteAll_eq _ _ _ _ (rxStep_out_fits hw hgo)]
  dsimp only
  rw [hev]

/-! ### Refusal -/

/-- The loop meets no full count when its first turn does not and the rest of it does not. -/
theorem unpackRoom_cons {cfg : Config} {cap w : Nat} {x : RxCtx} {b : Byte} {rest : List Byte}
    (hfirst : ¬(rxWouldEmit x b = true ∧ w = cap) → rxWouldAccept x b = true → x.cnt + 1 < 2 ^ cfg.countW)
    (hrest : ¬(rxWouldEmit x b = true ∧ w = cap) → (rxStep x b).ev = .none →
      UnpackRoom cfg cap (w + (rxStep x b).out.length) (rxStep x b).ctx rest) :
    UnpackRoom cfg cap w x (b :: rest) := by
  intro k c hk hquiet hlen hgo hacc
  cases k with
  | zero =>
    obtain rfl : b = c := by simpa using hk
    exact hfirst (by simpa using hgo) hacc
  | succ k =>
    rw [List.take_succ_cons] at hquiet hlen hgo hacc ⊢
    obtain ⟨hev, hquiet⟩ := rxFeed_cons_quiet.mp hquiet
    simp only [rxFeed_cons, List.length_append, ← Nat.add_assoc] at hlen hgo
    refine hrest ?_ hev k c (by simpa using hk) hquiet hlen hgo hacc
    rintro ⟨he, rfl⟩
    rw [rxStep_out, if_pos he, List.length_singleton] at hlen
    omega

/-- Where the loop answers it met no full count. -/
theorem unpackRoom_of_next {cfg : Config} {cap : Nat} {src : List Byte} {i w : Nat} {x : RxCtx} {m : Memory}
    {e : MacroEnd RxCtx} (hw : w ≤ cap) (h : unpackLoop cfg cap src i w x m = .next e) :
    UnpackRoom cfg cap w x src := by
  induction src generalizing i w x m with
  | nil => intro k b hk; simp at hk
  | cons b rest ih =>
    have hfirst (hgo : ¬(rxWouldEmit x b = true ∧ w = cap)) :
        rxWouldAccept x b = true → x.cnt + 1 < 2 ^ cfg.countW := by
      rw [unpackLoop, if_neg (by simpa using hgo)] at h
      split at h
      · cases h
      · next hr => exact (rxStepChecked_some hr).2
    refine unpackRoom_cons hfirst fun hgo hev => ?_
    rw [unpackLoop_step hw hgo (hfirst hgo) hev] at h
    exact ih (rxStep_out_fits hw hgo) h

/-- A full count is all that the loop can be refused for. -/
theorem unpackLoop_refused {cfg : Config} {cap : Nat} {src : List Byte} {i w : Nat} {x : RxCtx} {m : Memory}
    {r : Refusal} (h : unpackLoop cfg cap src i w x m = .refused r) : r = .countOverflow := by
  induction src generalizing i w x m with
  | nil => cases h
  | cons b rest ih =>
    unfold unpackLoop at h
    split at h
    · cases h
    · split at h
      · cases h; rfl
      · split at h
        · cases h
        · split at h
          · exact ih h
          all_goals cases h

/-- Settles O42: a loop that meets a full count does not answer, and it never faults. -/
theorem unpackAtFullCountIsRefused : Obligations.UnpackAtFullCountIsRefused := by
  intro s cap src hcap hsrc hfull
  cases hloop : unpackLoop s.cfg cap src 0 0 s.rx s.dst with
  | next e => exact absurd (unpackRoom_of_next (Nat.zero_le cap) hloop) hfull
  | fault φ => exact absurd hloop (unpackLoop_not_fault (Nat.zero_le cap))
  | refused r => rw [exec_rxUnpack_of_refused hcap hsrc hloop, unpackLoop_refused hloop]

/-! ### The step that reported the event -/

/-- A list that ends with an event ends with the byte that raised it. -/
theorem rxFeed_endsWith {x : RxCtx} {bs : List Byte} {ev : Event} (h : (rxFeed x bs).endsWith ev) :
    ∃ as b, bs = as ++ [b] ∧ (rxStep (rxFeed x as).ctx b).ev = ev ∧
      (rxFeed x bs).ctx = (rxStep (rxFeed x as).ctx b).ctx := by
  obtain ⟨before, hevs, -⟩ := h
  obtain rfl | ⟨as, b, rfl⟩ := List.eq_nil_or_concat' bs
  · simp at hevs
  · rw [rxFeed_append] at hevs ⊢
    obtain ⟨-, hlast⟩ := List.append_inj' hevs rfl
    exact ⟨as, b, rfl, by simpa using hlast, rfl⟩

theorem rxFeed_ctx_of_event {x : RxCtx} {bs : List Byte} {ev : Event} (h : (rxFeed x bs).endsWith ev)
    (hev : ev ≠ .none) : (rxFeed x bs).ctx = RxCtx.reset := by
  obtain ⟨as, b, -, rfl, hctx⟩ := rxFeed_endsWith h
  rw [hctx, (rxStep_event hev).1, takeEvent_ctx]

/-- A good frame ends with its closing flag. -/
theorem flag_of_endsWith_frameOk {x : RxCtx} {src : List Byte} {k : Nat} (hk : k ≤ src.length)
    (h : (rxFeed x (src.take k)).endsWith .frameOk) : 0 < k ∧ src[k - 1]? = some FLAG := by
  obtain ⟨as, b, htake, hev, -⟩ := rxFeed_endsWith h
  have hb : b = FLAG := by simpa [hev] using (rxStep_event (hev.trans_ne (by decide))).2.2
  have hlen : k = as.length + 1 := by simpa [hk] using congrArg List.length htake
  refine ⟨by omega, ?_⟩
  rw [← List.getElem?_take_of_lt (show k - 1 < k by omega), htake, hlen, hb]
  simp

/-! ### What a caller can conclude -/

theorem frameCompleted_iff {src : List Byte} {ret : Int} {consumed : Nat} {x : RxCtx} :
    frameCompleted src ret consumed x = true ↔
      0 ≤ ret ∧ consumed < src.length ∧ src[consumed]? = some FLAG ∧ doneFlag x = true := by
  simp only [frameCompleted, Bool.and_eq_true, decide_eq_true_eq, and_assoc]

/-- A byte that must emit is no flag. -/
theorem ne_flag_of_emits {x : RxCtx} {b : Byte} (h : rxWouldEmit x b = true) : b ≠ FLAG :=
  ((wouldEmitPredictsTheStep x b).2.mp h).2.1

/-- A closing flag that was stepped and is not counted as consumed, at the end of a call without an error, is the
closing flag of a good frame. -/
theorem UnpackEnding.frameOk_of_flag {cfg : Config} {cap : Nat} {src : List Byte} {k consumed : Nat} {f : Fed}
    {ret : Int} (h : UnpackEnding cfg cap src 0 0 k f ret consumed) (hcrc : cfg.errCrc < 0) (hframe : cfg.errFrame < 0)
    (hret : 0 ≤ ret) (hlt : consumed < src.length) (hflag : src[consumed]? = some FLAG) :
    f.endsWith .frameOk ∧ consumed = k - 1 ∧ ret = f.out.length := by
  cases h with
  | sourceExhausted hk _ => omega
  | frameGood _ hev => exact ⟨hev, Nat.zero_add _, by rw [Nat.zero_add]⟩
  | destinationExhausted b hb hemits _ _ =>
    rw [Nat.zero_add, hb, Option.some.injEq] at hflag
    exact absurd hflag (ne_flag_of_emits hemits)
  | crcError => omega
  | frameError => omega

/-- An error leaves the reset context (60_exceptions.md R132). -/
theorem UnpackEnding.reset_of_neg {cfg : Config} {cap : Nat} {src : List Byte} {k consumed : Nat} {x : RxCtx}
    {ret : Int} (h : UnpackEnding cfg cap src 0 0 k (rxFeed x (src.take k)) ret consumed) (hret : ret < 0) :
    (rxFeed x (src.take k)).ctx = RxCtx.reset := by
  cases h with
  | sourceExhausted | frameGood | destinationExhausted => omega
  | crcError _ hev => exact rxFeed_ctx_of_event hev (by decide)
  | frameError hev => exact rxFeed_ctx_of_event hev (by decide)

/-- Everything consumed without an error: the source was exhausted. -/
theorem UnpackEnding.exhausted_of_all_consumed {cfg : Config} {cap : Nat} {src : List Byte} {k consumed : Nat} {f : Fed}
    {ret : Int} (h : UnpackEnding cfg cap src 0 0 k f ret consumed) (hcrc : cfg.errCrc < 0) (hframe : cfg.errFrame < 0)
    (hk : k ≤ src.length) (hret : 0 ≤ ret) (hall : consumed = src.length) : k = src.length ∧ f.quiet := by
  cases h with
  | sourceExhausted hk hquiet => exact ⟨hk, hquiet⟩
  | frameGood hflag _ => omega
  | destinationExhausted b hb _ _ _ =>
    have := (List.getElem?_eq_some_iff.mp hb).1
    omega
  | crcError => omega
  | frameError => omega

/-- Settles O43, by the ways in which the call can have ended. -/
theorem callerRecognisesACompletedFrame : Obligations.CallerRecognisesACompletedFrame := by
  intro s t cap src ret consumed hcfg h hrsp
  obtain ⟨-, hneg⟩ := Config.wf_codes hcfg
  have hcrc : s.cfg.errCrc < 0 := (hneg _ (.inr (.inl rfl))).2
  have hframe : s.cfg.errFrame < 0 := (hneg _ (.inr (.inr rfl))).2
  obtain ⟨-, -, k, ret', consumed', hk, rfl, -, hend⟩ := execRxUnpack_next h
  obtain ⟨rfl, rfl⟩ : ret' = ret ∧ consumed' = consumed := by simpa using hrsp
  simp only [respond_rx]
  refine ⟨⟨fun hdone => ?_, ?_⟩, fun hret => ?_, fun hret hall => ?_⟩
  · obtain ⟨hret, hlt, hflag, -⟩ := frameCompleted_iff.mp hdone
    exact ⟨k, hk, hend.frameOk_of_flag hcrc hframe hret hlt hflag⟩
  · rintro ⟨k', hk', hev', hcons, hout⟩
    obtain ⟨hpos, hflag⟩ := flag_of_endsWith_frameOk hk' hev'
    rw [← hcons] at hflag
    have hret : 0 ≤ ret' := by omega
    have hlt : consumed' < src.length := by omega
    obtain ⟨hev, -, -⟩ := hend.frameOk_of_flag hcrc hframe hret hlt hflag
    refine frameCompleted_iff.mpr ⟨hret, hlt, hflag, ?_⟩
    rw [rxFeed_ctx_of_event hev (by decide)]
    rfl
  · rw [hend.reset_of_neg hret]
    exact ⟨rfl, rfl⟩
  · obtain ⟨rfl, hquiet⟩ := hend.exhausted_of_all_consumed hcrc hframe hk hret hall
    rw [List.take_length] at hquiet ⊢
    exact ⟨hquiet, rfl⟩

/-! ### Progress -/

/-- One byte does not take an event in the reset context, so a call that stepped one byte and took an event did not
leave the context as it was. -/
theorem not_event_of_one_byte {x : RxCtx} {bs : List Byte} {ev : Event} (h : (rxFeed x bs).endsWith ev)
    (hev : ev ≠ .none) (hone : bs.length = 1) : (rxFeed x bs).ctx ≠ x := by
  intro hsame
  obtain ⟨as, b, rfl, hstep, -⟩ := rxFeed_endsWith h
  obtain rfl : as = [] := by simpa using hone
  have hidle : x.st = .idle := by rw [← hsame, rxFeed_ctx_of_event h hev, rxReset_st]
  rw [rxFeed_nil, rxStep_of_idle hidle] at hstep
  exact hev hstep.symm

/-- Settles O44: of the ways to end with nothing consumed, those with an event left another context. -/
theorem unpackProgress : Obligations.UnpackProgress := by
  intro s t cap src ret h hrsp hrx
  obtain ⟨-, -, k, ret', consumed, hk, rfl, -, hend⟩ := execRxUnpack_next h
  obtain ⟨-, hcons⟩ : ret' = ret ∧ consumed = 0 := by simpa using hrsp
  have hlen : (src.take k).length = k := by simpa using hk
  cases hend with
  | sourceExhausted hall _ => exact .inl (List.eq_nil_of_length_eq_zero (by omega))
  | frameGood hflag hev => exact absurd hrx (not_event_of_one_byte hev (by decide) (by omega))
  | destinationExhausted b hb hemits hfull _ =>
    obtain rfl : k = 0 := by omega
    rw [List.take_zero, rxFeed_nil] at hemits hfull
    obtain ⟨rest, rfl⟩ : ∃ rest, src = b :: rest := List.head?_eq_some_iff.mp (List.head?_eq_getElem? ▸ hb)
    exact .inr ⟨hfull.symm, b, rest, rfl, hemits⟩
  | crcError hflag hev => exact absurd hrx (not_event_of_one_byte hev (by decide) (by omega))
  | frameError hev =>
    obtain ⟨as, b, htake, -⟩ := rxFeed_endsWith hev
    have : k = as.length + 1 := by rw [← hlen, htake, List.length_append, List.length_singleton]
    omega

end Sys2Proof.Machine

/-! A frame taken in with `RX.UNPACK` (41_rx_deframer.md R98 to R100): the wire of a frame delivers its payload, one call
stops inside the frame or completes it, and a host that calls on delivers the payload under any schedule. -/

namespace Sys2Proof.Machine

/-! ### The count over a list -/

theorem rxStep_cnt_ge {x : RxCtx} {b : Byte} (h : (rxStep x b).ev = .none) : x.cnt ≤ (rxStep x b).ctx.cnt := by
  rcases rxStep_cases x b with ⟨_, e⟩ | ⟨_, _, e⟩ | ⟨_, _, _, e⟩ | ⟨_, _, _, e⟩ | ⟨_, _, _, e⟩ | ⟨_, _, _, e⟩
  · rw [e, rxAccept_cnt]; omega
  · rw [e]
  · rw [e]
  · rw [e]
  · rw [e, takeEvent_ev] at h; split at h <;> cases h
  · rw [e] at h; cases h

/-- Without an event the count never falls. -/
theorem rxFeed_cnt_ge {x : RxCtx} {bs : List Byte} (h : (rxFeed x bs).quiet) : x.cnt ≤ (rxFeed x bs).ctx.cnt := by
  induction bs generalizing x with
  | nil => exact Nat.le_refl _
  | cons b bs ih =>
    obtain ⟨hev, hquiet⟩ := rxFeed_cons_quiet.mp h
    exact (rxStep_cnt_ge hev).trans (ih hquiet)

/-! ### A wire that delivers a frame -/

/-- Fed to the deframer in context `x`, the wire bytes deliver the payload `q` without an event and with room in the
count, and then only the closing flag of a good frame is missing. -/
structure DeliversFrame (cfg : Config) (x : RxCtx) (wire q : List Byte) : Prop where
  quiet : (rxFeed x wire).quiet
  out_eq : (rxFeed x wire).out = q
  room : (rxFeed x wire).ctx.cnt < 2 ^ cfg.countW
  closes : rxStep (rxFeed x wire).ctx FLAG = takeEvent .frameOk

/-- The first byte of such a wire: no event, room for an accept, and the rest delivers the rest. -/
theorem DeliversFrame.step {cfg : Config} {x : RxCtx} {b : Byte} {wire q : List Byte}
    (h : DeliversFrame cfg x (b :: wire) q) :
    (rxStep x b).ev = .none ∧ (rxWouldAccept x b = true → x.cnt + 1 < 2 ^ cfg.countW) ∧
      ∃ q', q = (rxStep x b).out ++ q' ∧ DeliversFrame cfg (rxStep x b).ctx wire q' := by
  obtain ⟨hev, hquiet⟩ := rxFeed_cons_quiet.mp h.quiet
  refine ⟨hev, fun ha => ?_, _, h.out_eq.symm, hquiet, rfl, h.room, h.closes⟩
  calc x.cnt + 1 = (rxStep x b).ctx.cnt := by rw [rxStep_accept ha, rxAccept_cnt]
    _ ≤ (rxFeed (rxStep x b).ctx wire).ctx.cnt := rxFeed_cnt_ge hquiet
    _ < 2 ^ cfg.countW := h.room

/-- After a front of such a wire the rest delivers the rest. -/
theorem DeliversFrame.rest {cfg : Config} {x : RxCtx} {as bs q : List Byte} (h : DeliversFrame cfg x (as ++ bs) q) :
    ∃ q', q = (rxFeed x as).out ++ q' ∧ DeliversFrame cfg (rxFeed x as).ctx bs q' := by
  induction as generalizing x q with
  | nil => exact ⟨q, rfl, h⟩
  | cons a as ih =>
    obtain ⟨-, -, q₁, rfl, h₁⟩ := h.step
    obtain ⟨q₂, rfl, h₂⟩ := ih h₁
    exact ⟨q₂, by rw [rxFeed_cons, List.append_assoc], h₂⟩

/-! ### The wire of a frame -/

/-- The data bytes of a frame: the payload and its CRC, low byte first (30_encoding.md R48). -/
def frameData (p : List Byte) : List Byte := p ++ [crcLow (crcOf p), crcHigh (crcOf p)]

theorem frame_eq (p : List Byte) : frame p = FLAG :: (frameData p).flatMap txEsc ++ [FLAG] := by
  simp [frame, frameData, crcWire]

theorem payloadOf_frameData (p : List Byte) : payloadOf (frameData p) = p := by
  simp [payloadOf, frameData]

theorem goodData_frameData (p : List Byte) : goodData (frameData p) = true := by
  simp [goodData, frameData]

/-- The unit that `tx_esc` makes of a data byte. -/
def escUnit (b : Byte) : WireUnit := { byte := b, escaped := decide (b = FLAG ∨ b = ESC) }

theorem escUnit_bytes (b : Byte) : (escUnit b).bytes = txEsc b := by
  simp only [escUnit, WireUnit.bytes, txEsc, decide_eq_true_eq]

theorem escUnit_legal (b : Byte) : (escUnit b).legal = true := by
  obtain ⟨hflag, hesc, -⟩ | ⟨hres, -, hflag, hesc⟩ := txEsc_cases b
  · simp [escUnit, WireUnit.legal, hflag, hesc]
  · simp [escUnit, WireUnit.legal, hres, hflag, hesc]

/-- Garbage without a flag, opening flags and the units of a payload and its CRC deliver the payload. -/
theorem deliversFrame_wire {cfg : Config} {g : List Byte} (hg : FLAG ∉ g) (n : Nat) {p : List Byte}
    (hp : p.length + 3 ≤ 2 ^ cfg.countW) :
    DeliversFrame cfg RxCtx.reset (g ++ FLAG :: List.replicate n FLAG ++ (frameData p).flatMap txEsc) p := by
  have hunits : (frameData p).flatMap txEsc = ((frameData p).map escUnit).flatMap WireUnit.bytes := by
    simp only [List.flatMap_map, escUnit_bytes]
  have hbytes : ((frameData p).map escUnit).map WireUnit.byte = frameData p := by
    rw [List.map_map]; exact List.map_id _
  obtain ⟨y, out, hy, hst, hout, hfeed⟩ := rxFeed_units (x := rxStarted) (units := (frameData p).map escUnit) (.inl rfl)
    (holdsData_reset.set_st .start) (by simp [escUnit_legal])
  rw [hbytes, List.nil_append] at hy hout
  have hopen := rxFeed_opening hg n
  refine ⟨?_, ?_, ?_, ?_⟩ <;> rw [rxFeed_append, hopen, hunits, hfeed]
  · intro e he
    simp only [List.mem_append, List.mem_replicate] at he
    exact he.elim And.right And.right
  · exact hout.trans (payloadOf_frameData p)
  · have hcnt : y.cnt = p.length + 2 := by rw [hy.cnt_eq]; simp [frameData]
    dsimp only
    omega
  · simp [rxStep, hst (by simp [frameData]), hy.rxGood_eq, goodData_frameData]

/-! ### One call inside a frame -/

/-- What the loop of `RX.UNPACK` answers when it stops without an event after the bytes `as`. -/
def unpackedTo (x : RxCtx) (m : Memory) (i w : Nat) (as : List Byte) : MacroEnd RxCtx :=
  { ctx := (rxFeed x as).ctx
    dst := Memory.writeList m w (rxFeed x as).out
    ret := (w + (rxFeed x as).out.length : Nat)
    consumed := i + as.length }

theorem unpackedTo_cons (x : RxCtx) (m : Memory) (i w : Nat) (b : Byte) (as : List Byte) :
    unpackedTo (rxStep x b).ctx (Memory.writeList m w (rxStep x b).out) (i + 1) (w + (rxStep x b).out.length) as =
      unpackedTo x m i w (b :: as) := by
  simp only [unpackedTo, rxFeed_cons, writeList_append, List.length_append, List.length_cons, MacroEnd.mk.injEq,
    true_and]
  omega

/-- A byte that emits its part of what still has room does not stop the loop. -/
theorem not_full_of_delivered {cap w : Nat} {x : RxCtx} {b : Byte} {q : List Byte}
    (hfit : w + ((rxStep x b).out ++ q).length ≤ cap) : ¬(rxWouldEmit x b = true ∧ w = cap) := by
  rintro ⟨he, rfl⟩
  rw [rxStep_out, if_pos he, List.length_append, List.length_singleton] at hfit
  omega

/-- With its closing flag in the source and room for its payload, the frame is completed (41_rx_deframer.md R93 item b,
R94). -/
theorem unpackLoop_wholeFrame {cfg : Config} {cap : Nat} {wire q rest : List Byte} {i w : Nat} {x : RxCtx} {m : Memory}
    (h : DeliversFrame cfg x wire q) (hfit : w + q.length ≤ cap) :
    unpackLoop cfg cap (wire ++ FLAG :: rest) i w x m =
      .next { unpackedTo x m i w wire with ctx := RxCtx.reset } := by
  induction wire generalizing i w x m q with
  | nil =>
    have hno : rxWouldEmit x FLAG = false := by simp [rxWouldEmit, rxWouldAccept]
    have hclose : rxStep x FLAG = takeEvent .frameOk := h.closes
    rw [List.nil_append, unpackLoop, hno, rxStepChecked_of_room (by simp [rxWouldAccept]), hclose]
    rfl
  | cons b wire ih =>
    obtain ⟨hev, hroom, q', rfl, hrest⟩ := h.step
    have hgo := not_full_of_delivered hfit
    rw [List.cons_append, unpackLoop_step (by omega) hgo hroom hev,
      ih hrest (by rw [List.length_append] at hfit; omega), unpackedTo_cons]

/-- A call that is offered the first `k` bytes of the frame, with the closing flag or the room missing, stops inside the
frame, not before a flag, and having moved on unless it could not. -/
theorem unpackLoop_partOfFrame {cfg : Config} {cap k : Nat} {wire q : List Byte} {i w : Nat} {x : RxCtx} {m : Memory}
    (h : DeliversFrame cfg x wire q) (hw : w ≤ cap) (hpart : k ≤ wire.length ∨ cap < w + q.length) :
    ∃ as bs, wire = as ++ bs ∧
      unpackLoop cfg cap ((wire ++ [FLAG]).take k) i w x m = .next (unpackedTo x m i w as) ∧
      ((wire ++ [FLAG]).take k)[as.length]? ≠ some FLAG ∧ (as = [] → k = 0 ∨ w = cap) := by
  induction wire generalizing k i w x m q with
  | nil =>
    obtain rfl : [] = q := h.out_eq
    obtain rfl : k = 0 := by
      simp only [List.length_nil] at hpart
      omega
    exact ⟨[], [], rfl, rfl, by simp, fun _ => .inl rfl⟩
  | cons b wire ih =>
    cases k with
    | zero => exact ⟨[], b :: wire, rfl, rfl, by simp, fun _ => .inl rfl⟩
    | succ k =>
      rw [List.cons_append, List.take_succ_cons]
      by_cases hgo : rxWouldEmit x b = true ∧ w = cap
      · exact ⟨[], b :: wire, rfl, by rw [unpackLoop, if_pos (by simpa using hgo)]; rfl,
          by simpa using ne_flag_of_emits hgo.1, fun _ => .inr hgo.2⟩
      · obtain ⟨hev, hroom, q', rfl, hrest⟩ := h.step
        obtain ⟨as, bs, rfl, hloop, hnext, -⟩ :=
          ih (k := k) (i := i + 1) (m := Memory.writeList m w (rxStep x b).out) hrest (rxStep_out_fits hw hgo)
            (hpart.imp (by simp) (by simp [Nat.add_assoc]))
        refine ⟨b :: as, bs, rfl, ?_, hnext, by simp⟩
        rw [unpackLoop_step hw hgo hroom hev, hloop, unpackedTo_cons]

theorem exec_rxUnpack_wholeFrame {s : State} {cap : Nat} {wire q rest : List Byte}
    (h : DeliversFrame s.cfg s.rx wire q) (hcap : capOk s.cfg cap = true)
    (hsrc : srcOk s.cfg (wire ++ FLAG :: rest) = true) (hfit : q.length ≤ cap) :
    exec (.rxUnpack cap (wire ++ FLAG :: rest)) s =
      .next { s with rx := RxCtx.reset, dst := Memory.writeList s.dst 0 q,
                     rsp := some (.counted q.length wire.length) } := by
  rw [exec_rxUnpack_of_next hcap hsrc (unpackLoop_wholeFrame h (by omega)), unpackedTo, h.out_eq]
  simp

theorem exec_rxUnpack_partOfFrame {s : State} {cap k : Nat} {wire q : List Byte}
    (h : DeliversFrame s.cfg s.rx wire q) (hcap : capOk s.cfg cap = true)
    (hsrc : srcOk s.cfg ((wire ++ [FLAG]).take k) = true) (hpart : k ≤ wire.length ∨ cap < q.length) :
    ∃ as bs, wire = as ++ bs ∧
      exec (.rxUnpack cap ((wire ++ [FLAG]).take k)) s =
        .next { s with rx := (rxFeed s.rx as).ctx, dst := Memory.writeList s.dst 0 (rxFeed s.rx as).out,
                       rsp := some (.counted (rxFeed s.rx as).out.length as.length) } ∧
      ((wire ++ [FLAG]).take k)[as.length]? ≠ some FLAG ∧ (as = [] → k = 0 ∨ cap = 0) := by
  obtain ⟨as, bs, hwire, hloop, hnext, hprogress⟩ :=
    unpackLoop_partOfFrame (i := 0) (m := s.dst) h (Nat.zero_le cap) (by simpa using hpart)
  refine ⟨as, bs, hwire, ?_, hnext, fun has => (hprogress has).imp_right Eq.symm⟩
  rw [exec_rxUnpack_of_next hcap hsrc hloop, unpackedTo]
  simp

/-! ### A frame in one call, and two frames in two calls -/

/-- Settles O46. -/
theorem garbageThenFrameDeliversTheFrame : Obligations.GarbageThenFrameDeliversTheFrame := by
  intro g p s cap hrx hg hp hcap hsrc hfit
  have hwire : g ++ frame p = (g ++ FLAG :: List.replicate 0 FLAG ++ (frameData p).flatMap txEsc) ++ FLAG :: [] := by
    simp [frame_eq]
  have hdelivers := hrx ▸ deliversFrame_wire hg 0 hp
  rw [hwire] at hsrc ⊢
  refine ⟨_, exec_rxUnpack_wholeFrame hdelivers hcap hsrc hfit, rfl, ?_, firstBytes_writeList p s.dst⟩
  simp [frame_eq]

/-- Settles O47: to the second call the closing flag of the first frame is one more opening flag. -/
theorem twoFramesTakeTwoCalls : Obligations.TwoFramesTakeTwoCalls := by
  intro p q s cap hrx hp hq hcap hsrc hpfit hqfit
  have hfirst : frame p ++ frame q =
      ([] ++ FLAG :: List.replicate 0 FLAG ++ (frameData p).flatMap txEsc) ++ FLAG :: frame q := by simp [frame_eq]
  have hsecond : (frame p ++ frame q).drop ((frame p).length - 1) =
      ([] ++ FLAG :: List.replicate 1 FLAG ++ (frameData q).flatMap txEsc) ++ FLAG :: [] := by
    rw [hfirst, frame_eq p, List.drop_left' (by simp)]
    simp [frame_eq]
  have hdelivers := hrx ▸ deliversFrame_wire (g := []) (by simp) 0 hp
  have hrest : srcOk s.cfg ((frame p ++ frame q).drop ((frame p).length - 1)) = true :=
    decide_eq_true ((List.drop_sublist ..).length_le.trans (of_decide_eq_true hsrc))
  rw [hsecond] at hrest ⊢
  rw [hfirst] at hsrc ⊢
  refine ⟨_, _, exec_rxUnpack_wholeFrame hdelivers hcap hsrc hpfit, ?_, firstBytes_writeList p s.dst,
    exec_rxUnpack_wholeFrame (deliversFrame_wire (by simp) 1 hq) hcap hrest hqfit, ?_, firstBytes_writeList q _, rfl⟩
  · simp [frame_eq]
  · simp [frame_eq]

/-! ### A host that calls on -/

theorem hostReceive_of_completed {cap k n consumed : Nat} {sched : List (Nat × Nat)} {link acc : List Byte}
    {s t : State} (h : exec (.rxUnpack cap (link.take k)) s = .next t) (hrsp : t.rsp = some (.counted n consumed))
    (hdone : frameCompleted (link.take k) n consumed t.rx = true) :
    hostReceive ((cap, k) :: sched) link acc s =
      some { payload := acc ++ Memory.firstBytes t.dst n, complete := true, link := link.drop consumed, state := t } := by
  simp [hostReceive, h, hrsp, hdone]

theorem hostReceive_of_open {cap k n consumed : Nat} {sched : List (Nat × Nat)} {link acc : List Byte}
    {s t : State} (h : exec (.rxUnpack cap (link.take k)) s = .next t) (hrsp : t.rsp = some (.counted n consumed))
    (hopen : frameCompleted (link.take k) n consumed t.rx = false) :
    hostReceive ((cap, k) :: sched) link acc s =
      hostReceive sched (link.drop consumed) (acc ++ Memory.firstBytes t.dst n) t := by
  simp [hostReceive, h, hrsp, hopen]

/-- What a host has of a frame of which it had `acc` when the link still delivered `q`. -/
structure ReceivedOf (acc q : List Byte) (r : Received) : Prop where
  payload_front : ∃ q', acc ++ q = r.payload ++ q'
  of_complete : r.complete = true → r.payload = acc ++ q ∧ r.link = [FLAG] ∧ r.state.rx = RxCtx.reset

/-- A host that calls on while the link delivers a frame, by the calls of its schedule: each call completes the frame,
or takes a front of the link and leaves a link that delivers the rest. With room and bytes in every call the front is
not empty, so the schedule need not be longer than the link. -/
theorem hostReceive_deliversFrame {sched : List (Nat × Nat)} {wire q acc : List Byte} {s : State}
    (h : DeliversFrame s.cfg s.rx wire q) (hsched : ∀ c ∈ sched, c.1 ≤ s.cfg.maxCount ∧ c.2 ≤ s.cfg.maxCount) :
    ∃ r, hostReceive sched (wire ++ [FLAG]) acc s = some r ∧ ReceivedOf acc q r ∧
      ((∀ c ∈ sched, 1 ≤ c.1 ∧ 1 ≤ c.2) → wire.length < sched.length → r.complete = true) := by
  induction sched generalizing wire q acc s with
  | nil => exact ⟨_, rfl, ⟨⟨q, rfl⟩, by simp⟩, by simp⟩
  | cons c sched ih =>
    obtain ⟨cap, k⟩ := c
    obtain ⟨⟨hcap, hk⟩, hsched⟩ := List.forall_mem_cons.mp hsched
    have hcap : capOk s.cfg cap = true := decide_eq_true hcap
    have hsrc : srcOk s.cfg ((wire ++ [FLAG]).take k) = true := decide_eq_true ((List.length_take_le ..).trans hk)
    by_cases hwhole : wire.length < k ∧ q.length ≤ cap
    · have htake : (wire ++ [FLAG]).take k = wire ++ [FLAG] := List.take_of_length_le (by simp; omega)
      have hexec := exec_rxUnpack_wholeFrame h hcap (htake ▸ hsrc) hwhole.2
      refine ⟨_, hostReceive_of_completed (htake ▸ hexec) rfl (frameCompleted_iff.mpr ?_), ⟨⟨[], ?_⟩, fun _ => ?_⟩,
        fun _ _ => rfl⟩
      · rw [htake]
        exact ⟨Int.natCast_nonneg _, by simp, by simp, rfl⟩
      · simp [firstBytes_writeList]
      · simp [firstBytes_writeList]
    · obtain ⟨as, bs, rfl, hexec, hnext, hprogress⟩ :=
        exec_rxUnpack_partOfFrame h hcap hsrc (by omega)
      have hopen : frameCompleted ((as ++ bs ++ [FLAG]).take k) (rxFeed s.rx as).out.length as.length
          (rxFeed s.rx as).ctx = false :=
        Bool.eq_false_iff.mpr fun hdone => hnext (frameCompleted_iff.mp hdone).2.2.1
      rw [hostReceive_of_open hexec rfl hopen, firstBytes_writeList, List.append_assoc as, List.drop_left]
      obtain ⟨q', rfl, hrest⟩ := h.rest
      obtain ⟨r, hr, hrecv, hcomplete⟩ := ih (acc := acc ++ (rxFeed s.rx as).out)
        (s := { s with rx := (rxFeed s.rx as).ctx, dst := Memory.writeList s.dst 0 (rxFeed s.rx as).out,
                       rsp := some (.counted (rxFeed s.rx as).out.length as.length) }) hrest hsched
      refine ⟨r, hr, ⟨?_, ?_⟩, fun hpos hlen => ?_⟩
      · simpa using hrecv.payload_front
      · simpa using hrecv.of_complete
      · obtain ⟨hone, hpos⟩ := List.forall_mem_cons.mp hpos
        refine hcomplete hpos ?_
        have hmoved : as.length ≠ 0 := fun h0 => by
          have := hprogress (List.eq_nil_of_length_eq_zero h0)
          omega
        simp only [List.length_append, List.length_cons] at hlen
        omega

/-- Settles O45: the frame without its closing flag delivers the payload. -/
theorem frameRoundTripsUnderAnyChunking : Obligations.FrameRoundTripsUnderAnyChunking := by
  intro p s sched hrx hp hsched
  have hframe : frame p = ([] ++ FLAG :: List.replicate 0 FLAG ++ (frameData p).flatMap txEsc) ++ [FLAG] := by
    simp [frame_eq]
  have hdelivers := hrx ▸ deliversFrame_wire (g := []) (by simp) 0 hp
  obtain ⟨r, hr, hrecv, hcomplete⟩ := hostReceive_deliversFrame (acc := []) hdelivers hsched
  rw [hframe, List.length_append, List.length_singleton]
  exact ⟨r, hr, fun _ => hrecv.payload_front, hrecv.of_complete, hcomplete⟩

end Sys2Proof.Machine

/-! PROOFS of the statements of 42_tx_framer.md. First the context and the output of the transmit operations in the
form the statements write them, the primitives, and what a host has sent of an open frame. -/

namespace Sys2Proof.Machine

/-! ### The context and the output -/

/-- The context after the opening flag, where it was due, and a list of raw bytes (42_tx_framer.md R108, R109). -/
theorem foldl_txFold_txOpened (x : TxCtx) (l : List Byte) :
    l.foldl txFold (txOpened x) =
      { st := if x.st = .idle then .data else x.st, crc := l.foldl crcUpdate x.crc, cnt := x.cnt + l.length } := by
  rw [txFold_foldl, txOpened_crc, txOpened_cnt, txOpened_st]

theorem foldl_txFold_st (x : TxCtx) (l : List Byte) : (l.foldl txFold x).st = x.st := by rw [txFold_foldl]

/-- Once the frame is open no opening flag is due. -/
theorem txOpenOut_of_open {x : TxCtx} (h : x.st ≠ .idle) : txOpenOut x = [] := if_neg h

theorem txOpenOut_length_le (x : TxCtx) : (txOpenOut x).length ≤ 1 := by
  rw [txOpenOut_length]; split <;> decide

/-- The output of `TX.FINAL` with the two bytes of the CRC as the statements write them. -/
theorem txFinalOut_eq (x : TxCtx) :
    txFinalOut x = (if x.st = .idle then [FLAG] else []) ++ txEsc (x.crc.setWidth 8) ++
      txEsc ((x.crc >>> 8).setWidth 8) ++ [FLAG] := by
  rw [setWidth_eq_fieldB, setWidth_ushiftRight_eq_crcHigh, txFinalOut, crcWire, ← List.append_assoc]
  rfl

theorem three_le_finalizeNeed (x : TxCtx) : 3 ≤ finalizeNeed x := by
  have hlow := (txEsc_length_bounds (crcLow x.crc)).1
  have hhigh := (txEsc_length_bounds (crcHigh x.crc)).1
  unfold finalizeNeed
  omega

/-! ### The primitives -/

theorem exec_txOpen (s : State) :
    exec .txOpen s = .next { s with tx := txOpened s.tx,
                                    rsp := some (.prim (txOpenOut s.tx).length .none (txOpenOut s.tx)) } := rfl

theorem exec_txFinal (s : State) :
    exec .txFinal s = .next { s with tx := TxCtx.reset,
                                     rsp := some (.prim (txFinalOut s.tx).length .none (txFinalOut s.tx)) } := rfl

theorem exec_txByte {s : State} {b : Byte} (hroom : s.tx.cnt + 1 < 2 ^ s.cfg.countW) :
    exec (.txByte b) s =
      .next { s with tx := txFold (txOpened s.tx) b,
                     rsp := some (.prim (txOpenOut s.tx ++ txEsc b).length .none (txOpenOut s.tx ++ txEsc b)) } := by
  have hnot : ¬ countFull s.cfg s.tx.cnt = true := by
    simp only [countFull, decide_eq_true_eq]; omega
  exact if_neg hnot

theorem exec_txByte_full {s : State} {b : Byte} (hfull : 2 ^ s.cfg.countW - 1 ≤ s.tx.cnt) :
    exec (.txByte b) s = .refused .countOverflow :=
  if_pos (decide_eq_true hfull)

/-- Settles O49. -/
theorem txInitResetsTheFramer : Obligations.TxInitResetsTheFramer := ⟨decode_encode rfl, fun _ => rfl⟩

/-- Settles O50: by whether a frame is open. -/
theorem txOpenEmitsTheFlagOnce : Obligations.TxOpenEmitsTheFlagOnce := by
  refine ⟨decode_encode rfl, fun s => ⟨fun hidle => ?_, fun hopen => ?_⟩⟩
  · have hctx : txOpened s.tx = { s.tx with st := .data } := if_pos hidle
    have hout : txOpenOut s.tx = [FLAG] := if_pos hidle
    rw [exec_txOpen, hctx, hout]
    rfl
  · have hctx : txOpened s.tx = s.tx := if_neg hopen
    rw [exec_txOpen, hctx, txOpenOut_of_open hopen]
    rfl

/-- Settles O51: the command word by the encoder, the operation by its two equations. -/
theorem txByteEscapesAndFolds : Obligations.TxByteEscapesAndFolds := by
  refine ⟨fun b => ?_, fun s b => ⟨fun hroom => ?_, exec_txByte_full⟩⟩
  · have hword : 0x1100 ||| b.setWidth 16 = commandWord 1 1 b := commandWord_zero_or 1 1 b
    exact hword ▸ decode_encode rfl
  · have hctx := foldl_txFold_txOpened s.tx [b]
    rw [List.foldl_cons, List.foldl_nil] at hctx
    rw [exec_txByte hroom, hctx]
    rfl

/-- Settles O52: the output is what `TX.FINALIZE` makes room for, whose bounds are known. -/
theorem txFinalClosesTheFrame : Obligations.TxFinalClosesTheFrame := by
  refine ⟨decode_encode rfl, fun s => ?_⟩
  dsimp only
  rw [← txFinalOut_eq, txFinalOut_length]
  refine ⟨?_, fun hinv => ⟨three_le_finalizeNeed s.tx, finalizeNeed_le_five hinv⟩⟩
  rw [exec_txFinal, txFinalOut_length]
  rfl

/-! ### What is sent of a frame -/

/-- The wire bytes `acc` are all that was sent of a frame of which the payload bytes `q` are packed: the opening flag is
among them or still due, and the context holds the CRC and the number of `q` (42_tx_framer.md R117). -/
structure HasSent (acc q : List Byte) (x : TxCtx) : Prop where
  wire_eq : acc ++ txOpenOut x = FLAG :: q.flatMap txEsc
  crc_eq : x.crc = crcOf q
  cnt_eq : x.cnt = q.length

theorem hasSent_reset : HasSent [] [] TxCtx.reset := ⟨rfl, rfl, rfl⟩

/-- Packing further bytes, after the opening flag where it was due. -/
theorem HasSent.pack {acc q : List Byte} {x : TxCtx} (h : HasSent acc q x) (l : List Byte) :
    HasSent (acc ++ (txOpenOut x ++ l.flatMap txEsc)) (q ++ l) (l.foldl txFold (txOpened x)) where
  wire_eq := by
    have hopen : (l.foldl txFold (txOpened x)).st ≠ .idle := by
      rw [foldl_txFold_st]; exact txOpened_not_idle x
    rw [txOpenOut_of_open hopen, List.append_nil, ← List.append_assoc, h.wire_eq, List.flatMap_append,
      List.cons_append]
  crc_eq := by rw [foldl_txFold_txOpened, h.crc_eq, crcOf_append]
  cnt_eq := by rw [foldl_txFold_txOpened, h.cnt_eq, List.length_append]

/-- The trailer completes the frame. -/
theorem HasSent.final {acc q : List Byte} {x : TxCtx} (h : HasSent acc q x) : acc ++ txFinalOut x = frame q := by
  calc acc ++ txFinalOut x
      = (acc ++ txOpenOut x) ++ crcWire x.crc ++ [FLAG] := by simp only [txFinalOut, List.append_assoc]
    _ = frame q := by rw [h.wire_eq, h.crc_eq]; rfl

/-- `TX.BYTE` on each byte of a list, then `TX.FINAL`, in a frame of which something may be sent already. -/
theorem runOps_txBytes_txFinal {p acc q : List Byte} {s : State} (h : HasSent acc q s.tx)
    (hroom : q.length + p.length < 2 ^ s.cfg.countW) :
    ∃ rs t, runOps (p.map .txByte ++ [.txFinal]) s = some (rs, t) ∧ acc ++ rs.flatMap Response.out = frame (q ++ p) ∧
      t.tx = TxCtx.reset ∧ t.rx = s.rx ∧ t.crc = s.crc := by
  induction p generalizing acc q s with
  | nil =>
    refine ⟨_, _, runOps_cons (exec_txFinal s) rfl rfl, ?_, rfl, rfl, rfl⟩
    rw [List.append_nil, ← h.final]
    simp [Response.out]
  | cons b p ih =>
    rw [List.length_cons] at hroom
    have hb := exec_txByte (s := s) (b := b) (by rw [h.cnt_eq]; omega)
    obtain ⟨rs, u, hrun, hout, hframe⟩ :=
      ih (s := { s with tx := txFold (txOpened s.tx) b,
                        rsp := some (.prim (txOpenOut s.tx ++ txEsc b).length .none (txOpenOut s.tx ++ txEsc b)) })
        (h.pack [b]) (by rw [List.length_append, List.length_singleton]; dsimp only; omega)
    refine ⟨_, u, runOps_cons hb rfl hrun, ?_, hframe⟩
    rw [List.append_cons q b p, ← hout]
    simp [Response.out]

/-- Settles O53: by induction on the payload, from a framer that has sent nothing. -/
theorem txPrimitivesBuildTheFrame : Obligations.TxPrimitivesBuildTheFrame := by
  intro p s hreset hp
  exact runOps_txBytes_txFinal (hreset ▸ hasSent_reset) (by simpa using hp)

/-! ### What the wire carries -/

theorem flag_not_mem_flatMap_txEsc (l : List Byte) : FLAG ∉ l.flatMap txEsc := by
  rw [List.mem_flatMap]
  rintro ⟨b, -, hb⟩
  obtain ⟨hflag, -, hplain⟩ | ⟨-, hpair, hflag, -⟩ := txEsc_cases b
  · rw [hplain, List.mem_singleton] at hb
    exact hflag hb.symm
  · simp only [hpair, List.mem_cons, List.not_mem_nil, or_false, FLAG_ne_ESC, false_or] at hb
    exact hflag hb.symm

/-- Every escape byte of a run of units is followed by one of the two bytes that can follow it. -/
theorem next_of_esc_in_units {l : List Byte} {j : Nat} (h : (l.flatMap txEsc)[j]? = some ESC) :
    (l.flatMap txEsc)[j + 1]? = some (FLAG ^^^ MASK) ∨ (l.flatMap txEsc)[j + 1]? = some (ESC ^^^ MASK) := by
  induction l generalizing j with
  | nil => simp at h
  | cons b l ih =>
    rw [List.flatMap_cons] at h ⊢
    obtain ⟨-, hesc, hplain⟩ | ⟨hres, hpair, -, hesc⟩ := txEsc_cases b
    · rw [hplain, List.singleton_append] at h ⊢
      match j with
      | 0 => exact absurd (by simpa using h) hesc
      | j + 1 => exact ih h
    · rw [hpair, List.cons_append, List.singleton_append] at h ⊢
      match j with
      | 0 => exact hres.imp (by rintro rfl; rfl) (by rintro rfl; rfl)
      | 1 => exact absurd (by simpa using h) hesc
      | j + 2 => exact ih h

theorem flatMap_txEsc_length_bounds (l : List Byte) :
    l.length ≤ (l.flatMap txEsc).length ∧ (l.flatMap txEsc).length ≤ 2 * l.length := by
  induction l with
  | nil => exact ⟨Nat.le_refl _, Nat.le_refl _⟩
  | cons b l ih =>
    have hb := txEsc_length_bounds b
    simp only [List.flatMap_cons, List.length_append, List.length_cons]
    omega

/-- Settles O59: between the flags stand the units of the payload and its CRC. -/
theorem framesAreTransparent : Obligations.FramesAreTransparent := by
  intro p
  have hbounds := flatMap_txEsc_length_bounds (frameData p)
  have hdata : (frameData p).length = p.length + 2 := by simp [frameData]
  have hframe : (frame p).length = ((frameData p).flatMap txEsc).length + 2 := by
    rw [frame_eq, List.length_append, List.length_cons, List.length_singleton]
  exact ⟨⟨_, frame_eq p, flag_not_mem_flatMap_txEsc _, fun _ => next_of_esc_in_units⟩, by omega, by omega⟩

end Sys2Proof.Machine

/-! `TX.PACK` and `TX.FINALIZE` as calls (42_tx_framer.md R111 to R114, R118, R120). -/

namespace Sys2Proof.Machine

/-! ### The operands and the destination -/

theorem operandsOk_of_checks {cfg : Config} {cap : Nat} {src : List Byte} (hcap : capOk cfg cap = true)
    (hsrc : srcOk cfg src = true) : operandsOk cfg cap src = true := by
  rw [operandsOk, hcap, hsrc, Bool.and_self]

/-- What a cell reads as after a call that wrote from offset 0 on. -/
theorem read_writeList_zero (vs : List Byte) (m : Memory) (a : Nat) :
    Memory.read (Memory.writeList m 0 vs) a = if a < vs.length then vs[a]? else Memory.read m a := by
  simp only [read_writeList, Nat.zero_le, true_and, Nat.zero_add, Nat.sub_zero]

/-! ### `TX.PACK` -/

/-- What the opened context has of the count is what the context before it has. -/
theorem packRoom_txOpened {cfg : Config} {cap w : Nat} {x : TxCtx} {src : List Byte} :
    PackRoom cfg cap w (txOpened x) src ↔ PackRoom cfg cap w x src := by
  simp only [PackRoom, txOpened_cnt]

/-- The opening flag is due and has no room. -/
theorem exec_txPack_noRoom {s : State} {cap : Nat} {src : List Byte} (hok : operandsOk s.cfg cap src = true)
    (h : cap < (txOpenOut s.tx).length) :
    exec (.txPack cap src) s = .next { s with rsp := some (.counted 0 0) } := by
  simp only [exec, execTxPack, hok, h, if_true]
  rfl

/-- Otherwise the call comes down to its loop, in a frame that is open. -/
theorem exec_txPack_of_next {s : State} {cap : Nat} {src : List Byte} {e : MacroEnd TxCtx}
    (hok : operandsOk s.cfg cap src = true) (hopen : (txOpenOut s.tx).length ≤ cap)
    (h : packLoop s.cfg cap src 0 (txOpenOut s.tx).length (txOpened s.tx)
      (Memory.writeList s.dst 0 (txOpenOut s.tx)) = .next e) :
    exec (.txPack cap src) s =
      .next { s with tx := e.ctx, dst := e.dst, rsp := some (.counted e.ret e.consumed) } := by
  simp only [exec, execTxPack, hok, if_true, Nat.not_lt.mpr hopen, if_false,
    memWriteAll_eq cap (txOpenOut s.tx) s.dst 0 (by omega), h]
  rfl

theorem exec_txPack_of_refused {s : State} {cap : Nat} {src : List Byte} {r : Refusal}
    (hok : operandsOk s.cfg cap src = true) (hopen : (txOpenOut s.tx).length ≤ cap)
    (h : packLoop s.cfg cap src 0 (txOpenOut s.tx).length (txOpened s.tx)
      (Memory.writeList s.dst 0 (txOpenOut s.tx)) = .refused r) :
    exec (.txPack cap src) s = .refused r := by
  simp only [exec, execTxPack, hok, if_true, Nat.not_lt.mpr hopen, if_false,
    memWriteAll_eq cap (txOpenOut s.tx) s.dst 0 (by omega), h]

/-- What `TX.PACK` answers when it packed the first bytes `l` of the source. -/
def packedTo (s : State) (l : List Byte) : State :=
  { s with tx := l.foldl txFold (txOpened s.tx)
           dst := Memory.writeList s.dst 0 (txOpenOut s.tx ++ l.flatMap txEsc)
           rsp := some (.counted (txOpenOut s.tx ++ l.flatMap txEsc).length l.length) }

/-- Where it meets no full count and the flag has room, `TX.PACK` packs as much as fits. -/
theorem exec_txPack_of_room {s : State} {cap : Nat} {src : List Byte} (hok : operandsOk s.cfg cap src = true)
    (hopen : (txOpenOut s.tx).length ≤ cap) (hroom : PackRoom s.cfg cap (txOpenOut s.tx).length s.tx src) :
    ∃ k, k ≤ src.length ∧ exec (.txPack cap src) s = .next (packedTo s (src.take k)) ∧
      (txOpenOut s.tx ++ (src.take k).flatMap txEsc).length ≤ cap ∧
      (k = src.length ∨ ∃ b, src[k]? = some b ∧
        cap < (txOpenOut s.tx ++ (src.take k).flatMap txEsc).length + (txEsc b).length) := by
  obtain ⟨e, he⟩ := packLoop_answers (i := 0) (m := Memory.writeList s.dst 0 (txOpenOut s.tx)) hopen
    (packRoom_txOpened.mpr hroom)
  obtain ⟨t, hexec⟩ : ∃ t, exec (.txPack cap src) s = .next t := ⟨_, exec_txPack_of_next hok hopen he⟩
  obtain ⟨-, -, ⟨hlt, -⟩ | ⟨k, hk, rfl, hfit, hend⟩⟩ := execTxPack_next hexec
  · omega
  · refine ⟨k, hk, ?_, hfit, hend⟩
    rw [hexec, packedTo, List.length_take_of_le hk]
    rfl

/-- Settles O54: the equation of the call, with the context and the output written out. -/
theorem packFillsTheDestinationWithWholeUnits : Obligations.PackFillsTheDestinationWithWholeUnits := by
  intro s cap src hcap hsrc
  have hok := operandsOk_of_checks hcap hsrc
  refine ⟨exec_txPack_noRoom hok, fun hopen hroom => ?_⟩
  obtain ⟨k, hk, hexec, hfit, hend⟩ := exec_txPack_of_room hok hopen hroom
  refine ⟨k, _, hk, ?_, hfit, read_writeList_zero (txOpenOut s.tx ++ (src.take k).flatMap txEsc) s.dst, hend⟩
  rw [hexec, packedTo, foldl_txFold_txOpened, List.length_take_of_le hk]
  rfl

/-- The loop meets no full count when its first turn does not and, after a unit that fits, the rest of it does not. -/
theorem packRoom_cons {cfg : Config} {cap w : Nat} {x : TxCtx} {b : Byte} {rest : List Byte}
    (hfirst : x.cnt + 1 < 2 ^ cfg.countW)
    (hrest : w + (txEsc b).length ≤ cap → PackRoom cfg cap (w + (txEsc b).length) (txFold x b) rest) :
    PackRoom cfg cap w x (b :: rest) := by
  intro k hk hlen
  cases k with
  | zero => exact hfirst
  | succ k =>
    rw [List.take_succ_cons, List.flatMap_cons, List.length_append] at hlen
    have := hrest (by omega) k (Nat.lt_of_succ_lt_succ hk) (by omega)
    rw [txFold_cnt] at this
    omega

/-- The loop is refused where it meets a full count. -/
theorem packLoop_full {cfg : Config} {cap : Nat} {src : List Byte} {i w : Nat} {x : TxCtx} {m : Memory}
    (h : ¬PackRoom cfg cap w x src) : packLoop cfg cap src i w x m = .refused .countOverflow := by
  induction src generalizing i w x m with
  | nil => exact absurd (fun k hk => absurd hk (Nat.not_lt_zero k)) h
  | cons b rest ih =>
    unfold packLoop
    split
    · rfl
    · next hfull =>
      have hfirst : x.cnt + 1 < 2 ^ cfg.countW := by
        simp only [countFull, decide_eq_true_eq] at hfull; omega
      split
      · next hend => exact absurd (packRoom_cons hfirst fun hfit => absurd hend (Nat.not_lt.mpr hfit)) h
      · next hfit =>
        rw [memWriteAll_eq _ _ _ _ (Nat.not_lt.mp hfit)]
        exact ih (mt (fun hrest => packRoom_cons hfirst fun _ => hrest) h)

/-- Settles O55. -/
theorem packAtFullCountIsRefused : Obligations.PackAtFullCountIsRefused := by
  intro s cap src hcap hsrc hopen hfull
  have hok := operandsOk_of_checks hcap hsrc
  exact exec_txPack_of_refused hok hopen (packLoop_full (mt packRoom_txOpened.mp hfull))

/-- Settles O56: nothing written leaves no flag due, and nothing packed leaves no source byte or a first unit that does
not fit. -/
theorem packProgress : Obligations.PackProgress := by
  intro s t cap src h hrsp
  have hflag := txOpenOut_length_le s.tx
  obtain ⟨-, -, ⟨hcap, -⟩ | ⟨k, -, rfl, hfit, hend⟩⟩ := execTxPack_next h
  · exact .inr (.inl (by omega))
  · obtain ⟨hwritten, rfl⟩ : (txOpenOut s.tx ++ (src.take k).flatMap txEsc).length = 0 ∧ k = 0 := by
      simpa only [respond_rsp, Option.some.injEq, Response.counted.injEq, Int.natCast_eq_zero] using hrsp
    have hopen : s.tx.st ≠ .idle := fun hidle => by
      rw [List.length_append, txOpenOut_length, if_pos hidle] at hwritten
      omega
    rw [hwritten] at hend
    obtain hnone | ⟨b, hb, hunit⟩ := hend
    · exact .inl ⟨List.eq_nil_of_length_eq_zero hnone.symm, hopen⟩
    · obtain ⟨rest, rfl⟩ := List.head?_eq_some_iff.mp (List.head?_eq_getElem?.trans hb)
      rw [txEsc_length] at hunit
      split at hunit
      · next hres =>
        obtain rfl | rfl : cap = 0 ∨ cap = 1 := by omega
        · exact .inr (.inl rfl)
        · exact .inr (.inr ⟨rfl, hopen, b, rest, rfl, hres⟩)
      · exact .inr (.inl (by omega))

/-! ### `TX.FINALIZE` -/

theorem operandsOk_nil {cfg : Config} {cap : Nat} (h : capOk cfg cap = true) : operandsOk cfg cap [] = true :=
  operandsOk_of_checks h (decide_eq_true (Nat.zero_le _))

theorem exec_txFinalize_short {s : State} {cap : Nat} (hcap : capOk s.cfg cap = true) (h : cap < finalizeNeed s.tx) :
    exec (.txFinalize cap) s = .next { s with rsp := some (.final s.cfg.errUnspec) } := by
  simp only [exec, execTxFinalize, operandsOk_nil hcap, h, if_true]
  rfl

theorem exec_txFinalize_fits {s : State} {cap : Nat} (hcap : capOk s.cfg cap = true) (h : finalizeNeed s.tx ≤ cap) :
    exec (.txFinalize cap) s =
      .next { s with tx := TxCtx.reset, dst := Memory.writeList s.dst 0 (txFinalOut s.tx),
                     rsp := some (.final (finalizeNeed s.tx)) } := by
  simp only [exec, execTxFinalize, operandsOk_nil hcap, Nat.not_lt.mpr h, if_true, if_false]
  rw [memWriteAll_eq _ _ _ _ (by rw [txFinalOut_length]; omega)]
  rfl

/-- Settles O57: the output has the length that the call asks for. -/
theorem finalizeWritesTheTrailerOrNothing : Obligations.FinalizeWritesTheTrailerOrNothing := by
  intro s cap hcap
  dsimp only
  rw [← txFinalOut_eq, txFinalOut_length]
  refine ⟨exec_txFinalize_short hcap, fun hfit => ⟨_, exec_txFinalize_fits hcap hfit, ?_⟩⟩
  exact txFinalOut_length s.tx ▸ read_writeList_zero (txFinalOut s.tx) s.dst

/-- In a framer that is idle nothing is packed (10_state.md R29). -/
theorem TxInv.crc_of_idle {cfg : Config} {x : TxCtx} (h : TxInv cfg x) (hidle : x.st = .idle) : x.crc = 0xFFFF := by
  obtain ⟨p, hlen, hcrc⟩ := h.crc_of_packed
  rw [h.idle_is_empty hidle] at hlen
  rw [hcrc, List.eq_nil_of_length_eq_zero hlen]
  rfl

/-- Settles O58: the bounds of the need, and the one trailer of an idle framer. -/
theorem finalizeNeedsThreeToFive : Obligations.FinalizeNeedsThreeToFive := by
  intro s hinv
  have hlow := three_le_finalizeNeed s.tx
  have hhigh := finalizeNeed_le_five hinv
  refine ⟨by omega, txFinalOut_length s.tx, fun hidle => ?_, fun cap h5 hcap => ?_⟩
  · have hout : txFinalOut s.tx = [0x7E, 0xFF, 0xFF, 0x7E] := by
      rw [txFinalOut_eq, hinv.crc_of_idle hidle, if_pos hidle]
      decide
    exact ⟨by rw [← txFinalOut_length, hout]; rfl, hout⟩
  · exact ⟨_, exec_txFinalize_fits hcap (hhigh.trans h5), rfl⟩

end Sys2Proof.Machine

/-! A payload streamed out with `TX.PACK` and closed with `TX.FINALIZE` (42_tx_framer.md R117). -/

namespace Sys2Proof.Machine

/-- One call in a frame whose count leaves room: it packs a front of the source and writes what that adds to the wire,
and with three free bytes (a flag and an escape pair) and a source byte the front is not empty. -/
theorem exec_txPack_call {s : State} {cap : Nat} {src : List Byte} (hok : operandsOk s.cfg cap src = true)
    (hroom : s.tx.cnt + src.length < 2 ^ s.cfg.countW) :
    ∃ t n l, l <+: src ∧ exec (.txPack cap src) s = .next t ∧ t.rsp = some (.counted (n : Nat) l.length) ∧
      (∀ acc q, HasSent acc q s.tx → HasSent (acc ++ Memory.firstBytes t.dst n) (q ++ l) t.tx) ∧
      (3 ≤ cap → 1 ≤ src.length → 1 ≤ l.length) := by
  have hflag := txOpenOut_length_le s.tx
  by_cases hopen : (txOpenOut s.tx).length ≤ cap
  · obtain ⟨k, hk, hexec, -, hend⟩ := exec_txPack_of_room hok hopen (packRoom_of_count hroom)
    refine ⟨_, _, src.take k, List.take_prefix k src, hexec, rfl, fun acc q h => ?_, ?_⟩
    · rw [packedTo, firstBytes_writeList]
      exact h.pack _
    · intro h3 hsrc
      rw [List.length_take_of_le hk]
      obtain rfl | ⟨b, -, hunit⟩ := hend
      · exact hsrc
      · have hb := (txEsc_length_bounds b).2
        refine Nat.one_le_iff_ne_zero.mpr fun h0 => ?_
        simp only [h0, List.take_zero, List.flatMap_nil, List.append_nil] at hunit
        omega
  · refine ⟨_, 0, [], List.nil_prefix, exec_txPack_noRoom hok (by omega), rfl, fun acc q h => ?_, fun h3 => by omega⟩
    simpa [Memory.firstBytes] using h

theorem hostSend_of_next {cap k n consumed : Nat} {sched : List (Nat × Nat)} {p acc : List Byte} {s t : State}
    (h : exec (.txPack cap (p.take k)) s = .next t) (hrsp : t.rsp = some (.counted n consumed)) :
    hostSend ((cap, k) :: sched) p acc s =
      hostSend sched (p.drop consumed) (acc ++ Memory.firstBytes t.dst n) t := by
  simp [hostSend, h, hrsp]

/-- A host that streams on, by the calls of its schedule: whatever it has sent is all of the frame of what it has packed
but the trailer. With room and bytes in every call each packs a byte, so the schedule need not be longer than the
payload. -/
theorem hostSend_hasSent {sched : List (Nat × Nat)} {p acc q : List Byte} {s : State} (h : HasSent acc q s.tx)
    (hinv : TxInv s.cfg s.tx) (hroom : q.length + p.length < 2 ^ s.cfg.countW)
    (hsched : ∀ c ∈ sched, c.1 ≤ s.cfg.maxCount ∧ c.2 ≤ s.cfg.maxCount) :
    ∃ r l, hostSend sched p acc s = some r ∧ p = l ++ r.rest ∧ HasSent r.wire (q ++ l) r.state.tx ∧
      r.state.cfg = s.cfg ∧ TxInv r.state.cfg r.state.tx ∧
      ((∀ c ∈ sched, 3 ≤ c.1 ∧ 1 ≤ c.2) → p.length ≤ sched.length → r.rest = []) := by
  induction sched generalizing p acc q s with
  | nil =>
    refine ⟨_, [], rfl, rfl, by simpa using h, rfl, hinv, fun _ hlen => ?_⟩
    exact List.eq_nil_of_length_eq_zero (Nat.le_zero.mp hlen)
  | cons c sched ih =>
    obtain ⟨cap, k⟩ := c
    obtain ⟨⟨hcap, hk⟩, hsched⟩ := List.forall_mem_cons.mp hsched
    have htake : (p.take k).length = min k p.length := List.length_take
    have hok : operandsOk s.cfg cap (p.take k) = true :=
      operandsOk_eq_true.mpr ⟨hcap, (List.length_take_le ..).trans hk⟩
    obtain ⟨t, n, l, hl, hexec, hrsp, hsent, hprogress⟩ := exec_txPack_call hok (by rw [h.cnt_eq]; omega)
    have hcfg := (exec_frame hexec).1
    obtain ⟨p', rfl⟩ := hl.trans (List.take_prefix k p)
    rw [hostSend_of_next hexec hrsp, List.drop_left]
    rw [List.length_append] at hroom htake
    obtain ⟨r, l', hr, rfl, hsent', hcfg', hinv', hall⟩ := ih (p := p') (hsent _ _ h)
      (hcfg ▸ exec_keeps_txInv hinv hexec) (by rw [hcfg, List.length_append]; omega) (hcfg ▸ hsched)
    refine ⟨r, l ++ l', hr, (List.append_assoc ..).symm, by rwa [← List.append_assoc], hcfg'.trans hcfg, hinv',
      fun hpos hle => ?_⟩
    obtain ⟨⟨h3, h1⟩, hpos⟩ := List.forall_mem_cons.mp hpos
    rw [List.length_append, List.length_cons] at hle
    have hmoved := hprogress h3
    exact hall hpos (by omega)

/-- Settles O60: what the host has sent when the payload is used up is the frame but the trailer, and the trailer needs
at most five bytes. -/
theorem streamedFrameEqualsOneShot : Obligations.StreamedFrameEqualsOneShot := by
  intro p s sched cap hreset hp hsched h5 hcap
  obtain ⟨r, l, hr, hpl, hsent, hcfg, hinv, hall⟩ := hostSend_hasSent (p := p) (hreset ▸ hasSent_reset)
    (hreset ▸ txInv_reset s.cfg) (by simpa using hp) hsched
  refine ⟨r, hr, fun hrest => ?_, hall⟩
  have hcapOk : capOk r.state.cfg cap = true := by rw [hcfg]; exact decide_eq_true hcap
  have hfinal := exec_txFinalize_fits hcapOk ((finalizeNeed_le_five hinv).trans h5)
  refine ⟨_, _, hfinal, rfl, ?_, rfl⟩
  rw [← txFinalOut_length, firstBytes_writeList, hsent.final, hpl, hrest, List.nil_append, List.append_nil]

end Sys2Proof.Machine

/-! The steps that execute no operation: nothing is issued, or the host hands over a buffer (60_exceptions.md R138,
20_memory.md R32). -/

namespace Sys2Proof.Machine

theorem step_of_nothing_issued {s : State} (hs : s.issued = []) : step s = .next s := by
  simp only [step, hs]

theorem step_of_lend {s : State} {cells : List Byte} {rest : List HostAction} (hs : s.issued = .lend cells :: rest) :
    step s = .next (lendDst cells { s with issued := rest }) := by
  simp only [step, hs]

/-- A lent buffer reads as its cells and holds nothing past them: no cell of the destination before it is left. -/
theorem read_lendDst (cells : List Byte) (s : State) (a : Nat) :
    Memory.read (lendDst cells s).dst a = cells[a]? := by
  rw [lendDst_dst, read_writeList_zero]
  split
  · rfl
  · next hpast => rw [read_nil, List.getElem?_eq_none (Nat.le_of_not_lt hpast)]

/-- Settles O7: the two steps by their equations, and the destination of the second by what it reads as. -/
theorem stepWithoutAnOperation : Obligations.StepWithoutAnOperation :=
  ⟨fun _ => step_of_nothing_issued, fun s cells _ hs => ⟨_, step_of_lend hs, read_lendDst cells s⟩⟩

end Sys2Proof.Machine

/-! PROOFS of the statements of 70_reset_and_hazards.md. First the power-on state; then what a host sees when it
initialises each channel before it uses it. What a channel held before its init is overwritten, one channel at a time:
an operation of another channel carries the overwritten registers along, and the channel's own init does not read
them. -/

namespace Sys2Proof.Machine

/-! ### The three inits -/

/-- The three inits in a row write every register of the channels, whatever these held (70_reset_and_hazards.md
R143). -/
theorem runOps_inits (s : State) :
    runOps [.crcInit, .rxInit, .txInit] s =
      some ([.prim 65535 .none [], .prim 0 .none [], .prim 0 .none []],
        { s with crc := { acc := 0xFFFF }, rx := RxCtx.reset, tx := TxCtx.reset, rsp := some (.prim 0 .none []) }) :=
  rfl

/-- Settles O8: by the equation of the three inits. -/
theorem resetState : Obligations.ResetState :=
  ⟨rfl, rfl, rfl, doneFlag_iff.mpr rfl, fun s => ⟨_, _, runOps_inits s, rfl, rfl, rfl⟩⟩

/-! ### Overwriting the registers of a channel -/

/-- The state with other registers in one channel. -/
def State.setRegisters (s : State) : (ch : Channel) → ch.Registers → State
  | .crc, c => { s with crc := c }
  | .rx, x => { s with rx := x }
  | .tx, x => { s with tx := x }

/-- The outcome with the state changed, where there is a next one. -/
def mapNext (f : State → State) : Host.Outcome State Fault Refusal → Host.Outcome State Fault Refusal
  | .next s => .next (f s)
  | .fault φ => .fault φ
  | .refused r => .refused r

section OtherRegisters

variable {s : State} {ch : Channel} {v : ch.Registers}

theorem setRegisters_cfg : (s.setRegisters ch v).cfg = s.cfg := by cases ch <;> rfl
theorem setRegisters_dst : (s.setRegisters ch v).dst = s.dst := by cases ch <;> rfl
theorem setRegisters_issued : (s.setRegisters ch v).issued = s.issued := by cases ch <;> rfl
theorem setRegisters_rsp : (s.setRegisters ch v).rsp = s.rsp := by cases ch <;> rfl

theorem setRegisters_of_ne {ch' : Channel} (h : ch ≠ ch') : (s.setRegisters ch v).registers ch' = s.registers ch' := by
  cases ch <;> cases ch' <;> trivial

theorem setRegisters_set_issued (rest : List HostAction) :
    { s.setRegisters ch v with issued := rest } = { s with issued := rest }.setRegisters ch v := by
  cases ch <;> rfl

theorem setRegisters_lendDst (cells : List Byte) :
    lendDst cells (s.setRegisters ch v) = (lendDst cells s).setRegisters ch v := by
  cases ch <;> rfl

/-- An operation reads and writes no register of another channel (10_state.md R30): over other values in that channel it
ends the same way, with those values still there. -/
theorem exec_setRegisters_of_ne {i : Instr} (h : ch ≠ channelOf i) :
    exec i (s.setRegisters ch v) = mapNext (·.setRegisters ch v) (exec i s) := by
  cases i with
  | crcInit | crcUpdate =>
    cases ch with
    | crc => exact absurd rfl h
    | rx | tx => rfl
  | rxInit | rxDone =>
    cases ch with
    | rx => exact absurd rfl h
    | crc | tx => rfl
  | txInit | txOpen | txFinal =>
    cases ch with
    | tx => exact absurd rfl h
    | crc | rx => rfl
  | rxByte b =>
    have hrx : (s.setRegisters ch v).rx = s.rx := setRegisters_of_ne h
    simp only [exec, execRxByte]
    rw [hrx, setRegisters_cfg]
    cases ch with
    | rx => exact absurd rfl h
    | crc | tx => split <;> rfl
  | rxUnpack cap src =>
    have hrx : (s.setRegisters ch v).rx = s.rx := setRegisters_of_ne h
    simp only [exec, execRxUnpack]
    rw [hrx, setRegisters_cfg, setRegisters_dst]
    cases ch with
    | rx => exact absurd rfl h
    | crc | tx =>
      split
      · split <;> rfl
      · rfl
  | txByte b =>
    have htx : (s.setRegisters ch v).tx = s.tx := setRegisters_of_ne h
    simp only [exec, execTxByte]
    rw [htx, setRegisters_cfg]
    cases ch with
    | tx => exact absurd rfl h
    | crc | rx => split <;> rfl
  | txPack cap src =>
    have htx : (s.setRegisters ch v).tx = s.tx := setRegisters_of_ne h
    simp only [exec, execTxPack]
    rw [htx, setRegisters_cfg, setRegisters_dst]
    cases ch with
    | tx => exact absurd rfl h
    | crc | rx =>
      split
      · split
        · rfl
        · split
          · rfl
          · split <;> rfl
      · rfl
  | txFinalize cap =>
    have htx : (s.setRegisters ch v).tx = s.tx := setRegisters_of_ne h
    simp only [exec, execTxFinalize]
    rw [htx, setRegisters_cfg, setRegisters_dst]
    cases ch with
    | tx => exact absurd rfl h
    | crc | rx =>
      split
      · split
        · rfl
        · split <;> rfl
      · rfl

/-- The registers of a channel are not among what a host sees. -/
theorem seen_next_setRegisters : seen (.next (s.setRegisters ch v)) = seen (.next s) := by
  simp only [seen, setRegisters_rsp, setRegisters_dst]

/-- The init of a channel reads none of its registers (70_reset_and_hazards.md R143). -/
theorem exec_setRegisters_of_init {i : Instr} (hch : ch = channelOf i) (hi : isInit i = true) :
    exec i (s.setRegisters ch v) = exec i s := by
  subst hch
  cases i with
  | crcInit | rxInit | txInit => rfl
  | _ => cases hi

/-! ### A host that initialises a channel before it uses it -/

/-- The host conforms to 70_reset_and_hazards.md R145, with the channels of `known` initialised already. -/
def conforms (known : Channel → Bool) (acts : List HostAction) : Prop :=
  initsFirst (known .crc) (known .rx) (known .tx) acts = true

theorem conforms_lend {known : Channel → Bool} {cells : List Byte} {rest : List HostAction} :
    conforms known (.lend cells :: rest) ↔ conforms known rest := Iff.rfl

/-- An operation is an init or its channel is initialised, and after it the channel is. -/
theorem conforms_issue {known : Channel → Bool} {q : Request} {rest : List HostAction} {i : Instr}
    (hd : decodeRequest q = .instr i) :
    conforms known (.issue q :: rest) ↔
      (isInit i = true ∨ known (channelOf i) = true) ∧ conforms (Function.update known (channelOf i) true) rest := by
  unfold conforms
  simp only [initsFirst, hd]
  cases channelOf i <;> simp [Function.update]

/-- An illegal request is refused (30_encoding.md R59). -/
theorem step_of_illegal_request {s : State} {q : Request} {rest : List HostAction} {why : Illegal}
    (hs : s.issued = .issue q :: rest) (hd : decodeRequest q = .illegal why) :
    step s = .refused (.illegalCommand why) := by
  simp only [step, hs, hd]

/-- The step of such a host over other registers in a channel that it has not initialised: it ends the same way (it is
the channel's own init, or it stops), or it carries these registers along to a host that still has not initialised the
channel. -/
theorem step_setRegisters {known : Channel → Bool} (hch : known ch = false) (hs : conforms known s.issued) :
    step (s.setRegisters ch v) = step s ∨
    ∃ t known', step s = .next t ∧ step (s.setRegisters ch v) = .next (t.setRegisters ch v) ∧
      known' ch = false ∧ conforms known' t.issued := by
  cases hi : s.issued with
  | nil =>
    exact .inr ⟨s, known, step_of_nothing_issued hi, step_of_nothing_issued (setRegisters_issued.trans hi), hch, hs⟩
  | cons a rest =>
    rw [hi] at hs
    cases a with
    | lend cells =>
      rw [step_of_lend hi, step_of_lend (setRegisters_issued.trans hi), setRegisters_set_issued, setRegisters_lendDst]
      exact .inr ⟨_, known, rfl, rfl, hch, conforms_lend.mp hs⟩
    | issue q =>
      cases hd : decodeRequest q with
      | illegal why =>
        rw [step_of_illegal_request hi hd, step_of_illegal_request (setRegisters_issued.trans hi) hd]
        exact .inl rfl
      | instr i =>
        obtain ⟨huse, hrest⟩ := (conforms_issue hd).mp hs
        rw [step_of_issue hi hd, step_of_issue (setRegisters_issued.trans hi) hd, setRegisters_set_issued]
        by_cases hown : ch = channelOf i
        · have hinit : isInit i = true := huse.resolve_right (by simp [← hown, hch])
          exact .inl (exec_setRegisters_of_init hown hinit)
        · rw [exec_setRegisters_of_ne hown]
          cases hexec : exec i { s with issued := rest } with
          | next t =>
            have hissued : t.issued = rest := (exec_frame hexec).2.1
            exact .inr ⟨t, Function.update known (channelOf i) true, rfl, rfl,
              (Function.update_of_ne hown true known).trans hch, hissued ▸ hrest⟩
          | fault | refused => exact .inl rfl

/-! ### Runs -/

theorem run_succ_of_next {k : Nat} {s t : State} (h : step s = .next t) :
    Host.Core.run Sys2Proof.core (k + 1) s = Host.Core.run Sys2Proof.core k t := by
  have hstep : Sys2Proof.core.step s = .next t := h
  simp only [Host.Core.run, hstep]

/-- A run of at least one step depends on its start state by the outcome of the first step. -/
theorem run_succ_congr {k : Nat} {s t : State} (h : step s = step t) :
    Host.Core.run Sys2Proof.core (k + 1) s = Host.Core.run Sys2Proof.core (k + 1) t := by
  have hstep : Sys2Proof.core.step s = Sys2Proof.core.step t := h
  simp only [Host.Core.run, hstep]

/-- What a channel held that the host has not initialised is never seen. -/
theorem seen_run_setRegisters (k : Nat) {known : Channel → Bool} (hch : known ch = false)
    (hs : conforms known s.issued) :
    seen (Host.Core.run Sys2Proof.core k (s.setRegisters ch v)) = seen (Host.Core.run Sys2Proof.core k s) := by
  induction k generalizing s known with
  | zero => exact seen_next_setRegisters
  | succ k ih =>
    obtain hsame | ⟨t, known', hnext, hcarried, hch', hs'⟩ := step_setRegisters (v := v) hch hs
    · rw [run_succ_congr hsame]
    · rw [run_succ_of_next hnext, run_succ_of_next hcarried]
      exact ih hch' hs'

end OtherRegisters

/-- States that agree beside the channels differ by the registers of the three channels. -/
theorem eq_setRegisters {s t : State} (hcfg : s.cfg = t.cfg) (hdst : s.dst = t.dst) (hissued : s.issued = t.issued)
    (hrsp : s.rsp = t.rsp) :
    t = ((s.setRegisters .crc t.crc).setRegisters .rx t.rx).setRegisters .tx t.tx := by
  simp only [State.setRegisters, hcfg, hdst, hissued, hrsp]

/-- Settles O14: the other start state is the first with the registers of each channel overwritten in turn, and at the
start the host has initialised none. -/
theorem initialisedRunsIgnoreTheStartState : Obligations.InitialisedRunsIgnoreTheStartState := by
  intro s t k hcfg hdst hissued hrsp hs
  have unseen {u : State} (hu : u.issued = s.issued) (ch : Channel) (v : ch.Registers) :
      seen (Host.Core.run Sys2Proof.core k (u.setRegisters ch v)) = seen (Host.Core.run Sys2Proof.core k u) :=
    seen_run_setRegisters k (known := fun _ => false) rfl (hu ▸ hs)
  rw [eq_setRegisters hcfg hdst hissued hrsp]
  calc seen (Host.Core.run Sys2Proof.core k s)
    _ = seen (Host.Core.run Sys2Proof.core k (s.setRegisters .crc t.crc)) := (unseen rfl .crc _).symm
    _ = _ := (unseen setRegisters_issued .rx t.rx).symm
    _ = _ := (unseen (setRegisters_issued.trans setRegisters_issued) .tx t.tx).symm

end Sys2Proof.Machine
